-- ==== Sys2Proof/Word.lean ====
section
/-! DEFINITION. The word types of the machine (spec/00_scope.md R4 to R6): every value is an unsigned bit vector.
Only the types and their plainest arithmetic stand here. -/

namespace Sys2Proof

/-- An 8-bit value: a memory cell, a general register, a timer (R4). -/
abbrev Byte := BitVec 8

/-- A 16-bit value: an instruction word, I, PC, a stack entry (R4). -/
abbrev Word := BitVec 16

/-- A 4-bit field of an instruction word (R5). -/
abbrev Nibble := BitVec 4

/-- A 12-bit address operand nnn (R81). -/
abbrev Addr12 := BitVec 12

/-- The index of one of the sixteen registers V0 to VF (R20): every value of the 4-bit fields x and y is one. -/
abbrev RegIdx := Fin 16

/-- VF, the register that doubles as the machine's only flag (R21). -/
abbrev vf : RegIdx := 15

/-- V0, the implicit offset operand of Bnnn (R20, R104). -/
abbrev v0 : RegIdx := 0

end Sys2Proof
end

