-- ==== Sys2Proof/Syntax.lean ====
section
/-! DEFINITION. The instruction set as syntax: one constructor per row of spec/opcode_table.json (34 rows, R91), in the
table's order. The operand types are exactly the fields of R81, so every term is an instruction the encoding can hold:
x and y reach all sixteen registers, kk is 8 bits, nnn is 12 bits, n is 4 bits. -/

namespace Sys2Proof

/-- An instruction (R91). The comment of each constructor names its pattern and its rule. -/
inductive Instr where
  /-- 00E0, clear display (R150). -/
  | cls
  /-- 00EE, return (R101). -/
  | ret
  /-- 1nnn, jump (R102). -/
  | jp (nnn : Addr12)
  /-- 2nnn, call (R103). -/
  | call (nnn : Addr12)
  /-- 3xkk, skip if Vx equals kk (R105). -/
  | seVxKk (x : RegIdx) (kk : Byte)
  /-- 4xkk, skip if Vx differs from kk (R106). -/
  | sneVxKk (x : RegIdx) (kk : Byte)
  /-- 5xy0, skip if Vx equals Vy (R107). -/
  | seVxVy (x y : RegIdx)
  /-- 6xkk, load immediate (R120). -/
  | ldVxKk (x : RegIdx) (kk : Byte)
  /-- 7xkk, add immediate (R121). -/
  | addVxKk (x : RegIdx) (kk : Byte)
  /-- 8xy0, assign (R122). -/
  | ldVxVy (x y : RegIdx)
  /-- 8xy1, OR (R123). -/
  | orVxVy (x y : RegIdx)
  /-- 8xy2, AND (R124). -/
  | andVxVy (x y : RegIdx)
  /-- 8xy3, XOR (R125). -/
  | xorVxVy (x y : RegIdx)
  /-- 8xy4, ADD with carry flag (R126). -/
  | addVxVy (x y : RegIdx)
  /-- 8xy5, SUB with no-borrow flag (R127). -/
  | subVxVy (x y : RegIdx)
  /-- 8xy6, shift right by one (R128); y is encoded and ignored. -/
  | shrVx (x y : RegIdx)
  /-- 8xy7, reverse subtract with no-borrow flag (R129). -/
  | subnVxVy (x y : RegIdx)
  /-- 8xyE, shift left by one (R130); y is encoded and ignored. -/
  | shlVx (x y : RegIdx)
  /-- 9xy0, skip if Vx differs from Vy (R108). -/
  | sneVxVy (x y : RegIdx)
  /-- Annn, load index (R140). -/
  | ldINnn (nnn : Addr12)
  /-- Bnnn, jump with offset V0 (R104). -/
  | jpV0Nnn (nnn : Addr12)
  /-- Cxkk, random byte AND immediate (R131). -/
  | rndVxKk (x : RegIdx) (kk : Byte)
  /-- Dxyn, draw sprite (R151). -/
  | drwVxVyN (x y : RegIdx) (n : Nibble)
  /-- Ex9E, skip if key pressed (R160). -/
  | skpVx (x : RegIdx)
  /-- ExA1, skip if key not pressed (R161). -/
  | sknpVx (x : RegIdx)
  /-- Fx07, read delay timer (R164). -/
  | ldVxDt (x : RegIdx)
  /-- Fx0A, wait for key (R162). -/
  | ldVxK (x : RegIdx)
  /-- Fx15, write delay timer (R165). -/
  | ldDtVx (x : RegIdx)
  /-- Fx18, write sound timer (R166). -/
  | ldStVx (x : RegIdx)
  /-- Fx1E, add register to index (R141). -/
  | addIVx (x : RegIdx)
  /-- Fx29, point I at a glyph (R142). -/
  | ldFVx (x : RegIdx)
  /-- Fx33, store binary-coded decimal (R143). -/
  | ldBVx (x : RegIdx)
  /-- Fx55, store V0 to Vx (R144). -/
  | ldMiVx (x : RegIdx)
  /-- Fx65, load V0 to Vx (R145). -/
  | ldVxMi (x : RegIdx)
  deriving DecidableEq, Repr

end Sys2Proof
end

