-- ==== Sys2Proof/WellFormed.lean ====
section
/-! DEFINITION. Which instruction words are well formed: the list of illegal words of spec/30_encoding.md R89, written as
arithmetic on the word's value and without the decoder, so that the decoder can be held against it. An Instr term needs no
check of its own: its operand types are the encoding's fields (Syntax.lean), so the checks are on words, one per class. -/

namespace Sys2Proof

/-- The six classes of illegal words, by name (R89). -/
inductive IllegalClass where
  /-- 0x0000 to 0x0FFF except 0x00E0 and 0x00EE. -/
  | zeroGroup
  /-- 5xyN with N not 0. -/
  | fiveGroup
  /-- 8xyN with N in 8, 9, A, B, C, D, F. -/
  | eightGroup
  /-- 9xyN with N not 0. -/
  | nineGroup
  /-- ExKK with KK not 9E or A1. -/
  | keyGroup
  /-- FxKK with KK not one of the nine listed values. -/
  | miscGroup
  deriving DecidableEq, Repr

/-- The class of an illegal word; `none` for a legal one. The six tests are the six items of R89, on the word's value. -/
def illegalClass (w : Word) : Option IllegalClass :=
  let v := w.toNat
  if v ≤ 0x0FFF ∧ v ≠ 0x00E0 ∧ v ≠ 0x00EE then some .zeroGroup
  else if v / 0x1000 = 0x5 ∧ v % 0x10 ≠ 0x0 then some .fiveGroup
  else if v / 0x1000 = 0x8 ∧ v % 0x10 ∈ [0x8, 0x9, 0xA, 0xB, 0xC, 0xD, 0xF] then some .eightGroup
  else if v / 0x1000 = 0x9 ∧ v % 0x10 ≠ 0x0 then some .nineGroup
  else if v / 0x1000 = 0xE ∧ v % 0x100 ∉ [0x9E, 0xA1] then some .keyGroup
  else if v / 0x1000 = 0xF ∧ v % 0x100 ∉ [0x07, 0x0A, 0x15, 0x18, 0x1E, 0x29, 0x33, 0x55, 0x65] then some .miscGroup
  else none

/-- A word is well formed when R89 does not list it. -/
abbrev WellFormedWord (w : Word) : Prop := illegalClass w = none

end Sys2Proof
end

