-- ==== Sys2Proof/Decode.lean ====
section
/-! DEFINITION. The decoder and the encoder (spec/30_encoding.md). Decoding is a function of the 16 bits alone (R84),
total, and rejects an illegal word by the name of its class (R89). The encoder is written from the formats of R82. -/

namespace Sys2Proof

/-! ## Fields of an instruction word (R5, R81) -/

/-- n1 = instr[15:12], the major opcode. -/
def nib1 (w : Word) : Nibble := w.extractLsb' 12 4

/-- n2 = instr[11:8]. -/
def nib2 (w : Word) : Nibble := w.extractLsb' 8 4

/-- n3 = instr[7:4]. -/
def nib3 (w : Word) : Nibble := w.extractLsb' 4 4

/-- n4 = instr[3:0]; the sprite height n of Dxyn. -/
def nib4 (w : Word) : Nibble := w.extractLsb' 0 4

/-- x = instr[11:8] as a register index. -/
def fieldX (w : Word) : RegIdx := (nib2 w).toFin

/-- y = instr[7:4] as a register index. -/
def fieldY (w : Word) : RegIdx := (nib3 w).toFin

/-- nnn = instr[11:0]. -/
def fieldNnn (w : Word) : Addr12 := w.extractLsb' 0 12

/-- kk = instr[7:0]. -/
def fieldKk (w : Word) : Byte := w.extractLsb' 0 8

/-! ## Decoding -/

/-- Sub-map for n1 = 0 (R85): the whole word is compared. -/
def decodeZero (w : Word) : Except IllegalClass Instr :=
  if w = 0x00E0#16 then .ok .cls
  else if w = 0x00EE#16 then .ok .ret
  else .error .zeroGroup

/-- Sub-map for n1 = 8 (R86), by n4. -/
def decodeEight (w : Word) : Except IllegalClass Instr :=
  match nib4 w with
  | 0x0#4 => .ok (.ldVxVy (fieldX w) (fieldY w))
  | 0x1#4 => .ok (.orVxVy (fieldX w) (fieldY w))
  | 0x2#4 => .ok (.andVxVy (fieldX w) (fieldY w))
  | 0x3#4 => .ok (.xorVxVy (fieldX w) (fieldY w))
  | 0x4#4 => .ok (.addVxVy (fieldX w) (fieldY w))
  | 0x5#4 => .ok (.subVxVy (fieldX w) (fieldY w))
  | 0x6#4 => .ok (.shrVx (fieldX w) (fieldY w))
  | 0x7#4 => .ok (.subnVxVy (fieldX w) (fieldY w))
  | 0xE#4 => .ok (.shlVx (fieldX w) (fieldY w))
  | _ => .error .eightGroup

/-- Sub-map for n1 = E (R87), by kk. -/
def decodeKey (w : Word) : Except IllegalClass Instr :=
  match fieldKk w with
  | 0x9E#8 => .ok (.skpVx (fieldX w))
  | 0xA1#8 => .ok (.sknpVx (fieldX w))
  | _ => .error .keyGroup

/-- Sub-map for n1 = F (R88), by kk. -/
def decodeMisc (w : Word) : Except IllegalClass Instr :=
  match fieldKk w with
  | 0x07#8 => .ok (.ldVxDt (fieldX w))
  | 0x0A#8 => .ok (.ldVxK (fieldX w))
  | 0x15#8 => .ok (.ldDtVx (fieldX w))
  | 0x18#8 => .ok (.ldStVx (fieldX w))
  | 0x1E#8 => .ok (.addIVx (fieldX w))
  | 0x29#8 => .ok (.ldFVx (fieldX w))
  | 0x33#8 => .ok (.ldBVx (fieldX w))
  | 0x55#8 => .ok (.ldMiVx (fieldX w))
  | 0x65#8 => .ok (.ldVxMi (fieldX w))
  | _ => .error .miscGroup

/-- The first level of the opcode map, by n1 (R84). A fixed digit of a pattern must match exactly (decision D20, log 12). -/
def decodeWord (w : Word) : Except IllegalClass Instr :=
  match nib1 w with
  | 0x0#4 => decodeZero w
  | 0x1#4 => .ok (.jp (fieldNnn w))
  | 0x2#4 => .ok (.call (fieldNnn w))
  | 0x3#4 => .ok (.seVxKk (fieldX w) (fieldKk w))
  | 0x4#4 => .ok (.sneVxKk (fieldX w) (fieldKk w))
  | 0x5#4 => if nib4 w = 0x0#4 then .ok (.seVxVy (fieldX w) (fieldY w)) else .error .fiveGroup
  | 0x6#4 => .ok (.ldVxKk (fieldX w) (fieldKk w))
  | 0x7#4 => .ok (.addVxKk (fieldX w) (fieldKk w))
  | 0x8#4 => decodeEight w
  | 0x9#4 => if nib4 w = 0x0#4 then .ok (.sneVxVy (fieldX w) (fieldY w)) else .error .nineGroup
  | 0xA#4 => .ok (.ldINnn (fieldNnn w))
  | 0xB#4 => .ok (.jpV0Nnn (fieldNnn w))
  | 0xC#4 => .ok (.rndVxKk (fieldX w) (fieldKk w))
  | 0xD#4 => .ok (.drwVxVyN (fieldX w) (fieldY w) (nib4 w))
  | 0xE#4 => decodeKey w
  | _ => decodeMisc w -- the sixteenth value, n1 = 0xF

/-- The instruction word of two bytes, high byte first (R52). -/
def wordOfBytes (hi lo : Byte) : Word := hi ++ lo

/-- The two bytes of a word as memory holds them, high byte first (R52). -/
def bytesOfWord (w : Word) : List Byte := [w.extractLsb' 8 8, w.extractLsb' 0 8]

/-- Why a byte sequence yields no instruction. -/
inductive DecodeReject where
  /-- Fewer than two bytes: no instruction is shorter (R80). -/
  | truncated
  /-- The word is illegal, of the class named (R89). -/
  | illegal (c : IllegalClass)
  deriving DecidableEq, Repr

/-- Decoding of any byte sequence: the first instruction and the bytes after it, or a rejection by name. -/
def decodeBytes : List Byte → Except DecodeReject (Instr × List Byte)
  | hi :: lo :: rest =>
    match decodeWord (wordOfBytes hi lo) with
    | .ok i => .ok (i, rest)
    | .error c => .error (.illegal c)
  | _ => .error .truncated

/-! ## Encoding (R82) -/

/-- Format A: a fixed n1 and nnn. -/
def formatA (n1 : Nibble) (nnn : Addr12) : Word := n1 ++ nnn

/-- Format XK: a fixed n1, x and kk. Format X is this with kk fixed. -/
def formatXK (n1 : Nibble) (x : RegIdx) (kk : Byte) : Word := n1 ++ BitVec.ofFin (w := 4) x ++ kk

/-- Format XYN: a fixed n1, x, y and n. Format XY is this with n fixed. -/
def formatXYN (n1 : Nibble) (x y : RegIdx) (n : Nibble) : Word :=
  n1 ++ BitVec.ofFin (w := 4) x ++ BitVec.ofFin (w := 4) y ++ n

/-- The word of an instruction, from the formats of R82 and the fixed digits of the patterns. -/
def encode : Instr → Word
  | .cls => 0x00E0#16
  | .ret => 0x00EE#16
  | .jp nnn => formatA 0x1#4 nnn
  | .call nnn => formatA 0x2#4 nnn
  | .seVxKk x kk => formatXK 0x3#4 x kk
  | .sneVxKk x kk => formatXK 0x4#4 x kk
  | .seVxVy x y => formatXYN 0x5#4 x y 0x0#4
  | .ldVxKk x kk => formatXK 0x6#4 x kk
  | .addVxKk x kk => formatXK 0x7#4 x kk
  | .ldVxVy x y => formatXYN 0x8#4 x y 0x0#4
  | .orVxVy x y => formatXYN 0x8#4 x y 0x1#4
  | .andVxVy x y => formatXYN 0x8#4 x y 0x2#4
  | .xorVxVy x y => formatXYN 0x8#4 x y 0x3#4
  | .addVxVy x y => formatXYN 0x8#4 x y 0x4#4
  | .subVxVy x y => formatXYN 0x8#4 x y 0x5#4
  | .shrVx x y => formatXYN 0x8#4 x y 0x6#4
  | .subnVxVy x y => formatXYN 0x8#4 x y 0x7#4
  | .shlVx x y => formatXYN 0x8#4 x y 0xE#4
  | .sneVxVy x y => formatXYN 0x9#4 x y 0x0#4
  | .ldINnn nnn => formatA 0xA#4 nnn
  | .jpV0Nnn nnn => formatA 0xB#4 nnn
  | .rndVxKk x kk => formatXK 0xC#4 x kk
  | .drwVxVyN x y n => formatXYN 0xD#4 x y n
  | .skpVx x => formatXK 0xE#4 x 0x9E#8
  | .sknpVx x => formatXK 0xE#4 x 0xA1#8
  | .ldVxDt x => formatXK 0xF#4 x 0x07#8
  | .ldVxK x => formatXK 0xF#4 x 0x0A#8
  | .ldDtVx x => formatXK 0xF#4 x 0x15#8
  | .ldStVx x => formatXK 0xF#4 x 0x18#8
  | .addIVx x => formatXK 0xF#4 x 0x1E#8
  | .ldFVx x => formatXK 0xF#4 x 0x29#8
  | .ldBVx x => formatXK 0xF#4 x 0x33#8
  | .ldMiVx x => formatXK 0xF#4 x 0x55#8
  | .ldVxMi x => formatXK 0xF#4 x 0x65#8

/-! ## The opcode table's numbering -/

/-- The word of an instruction whose bits are w, numbered as spec/opcode_table.json numbers them (bit 0 the least
significant of the one 16-bit word); every bit from nbits up is 0. The machine has one length, so bits above 15 name
nothing (R80; log 20). -/
def tableWord (nbits w : Nat) : Word := BitVec.ofNat 16 (w % 2 ^ nbits)

/-- The instruction the decoder reads from that word laid out in memory order. -/
def decodeTableWord (nbits w : Nat) : Option Instr :=
  match decodeBytes (bytesOfWord (tableWord nbits w)) with
  | .ok (i, _) => some i
  | .error _ => none

end Sys2Proof
end

