-- ==== Sys2Proof/Config.lean ====
section
/-! DEFINITION. The free inputs of the machine (spec/92_eei_decisions.md, open parameters RAND and KEYS). Neither has a
body, so no proof can see a value of one: what is proved of the machine holds for every sequence of inputs.
The parameters that the spec gives a default (GLYPH_ROM, STORE_FLOOR) stand in Machine/Parameters.lean. -/

namespace Sys2Proof.Config

/-- RAND (R38): the byte drawn by the n-th execution of Cxkk, one fresh draw each, under no law (decision D16, log 1).
Safe: a claim proved of the machine holds whatever generator the hardware has. -/
opaque randByte : Nat → BitVec 8

/-- KEYS (R37): the sixteen key levels seen by the n-th execution of Ex9E or ExA1, bit k set when key k is pressed, free
at each sample (decision D10, log 2). Safe: it admits more runs than any keypad. -/
opaque keyLevels : Nat → BitVec 16

end Sys2Proof.Config
end

