-- ==== Sys2Proof/Machine/State.lean ====
section
/-! DEFINITION. The state of the machine as plain data: every piece of state that spec/10_state.md R44 lists, and two
counters of the model's own that number the free inputs. With it the closed lists of faults and refusals, and the state
after power-on (R41). -/

namespace Sys2Proof.Machine

/-- MEM (R36) as a list of (address, byte) pairs: addresses strictly rising and below 4096, and no entry equal to what an
unlisted address reads as (`Memory.wf` in Machine/Ops.lean). -/
abbrev Memory := List Host.Cell

/-- FB (R33): 32 rows of 64 pixels, `true` lit. -/
abbrev Display := Vector (Vector Bool 64) 32

/-- The machine's state (R44). -/
structure State where
  /-- V0 to VF (R20). -/
  v : Vector Byte 16
  /-- The index register I (R22). -/
  i : Word
  /-- The program counter PC (R23): between operations, the address of the next instruction's first byte. -/
  pc : Word
  /-- The stack pointer SP as the depth 0 to 16 (R29, R30). -/
  sp : Fin 17
  /-- STACK[0] to STACK[15] (R28); the live entries are those below `sp`. -/
  stack : Vector Word 16
  /-- The delay timer DT (R31). -/
  dt : Byte
  /-- The sound timer ST (R32). -/
  st : Byte
  /-- The display surface FB (R33). -/
  fb : Display
  /-- The pending-key flag AWAIT (R35): the register a key wait will fill. -/
  await : Option RegIdx
  /-- The memory MEM (R36). -/
  mem : Memory
  /-- The model's own: how many times KEYS has been sampled; the next sample is `Config.keyLevels keySamples`. -/
  keySamples : Nat
  /-- The model's own: how many RAND bytes have been drawn; the next draw is `Config.randByte randDraws`. -/
  randDraws : Nat
  deriving DecidableEq, Repr

/-- The five named faults, a closed list (R172). A fault changes no state (R171) and carries no value (R178). Each is
the hardware's own outcome, so each is safe: the model stops where the hardware reports. -/
inductive Fault where
  /-- Code 1 (R173): raised by a fetch from PC at or above 0xFFF, by Fx33, Fx55, Fx65 and Dxyn on a range past 0xFFF, by
  Fx33 and Fx55 on a range that touches the glyph region (the guard of R55, log 6), and by the host's MemRead and
  MemWrite. Safe. -/
  | addressOutOfRange
  /-- Code 2 (R174): raised by LOAD_PROGRAM on more than 0xE00 bytes; no step raises it. Safe. -/
  | programTooLarge
  /-- Code 3 (R175): raised by 2nnn when sixteen entries are live. Safe. -/
  | stackOverflow
  /-- Code 4 (R176): raised by 00EE when no entry is live. Safe. -/
  | stackUnderflow
  /-- Code 5 (R177): raised by a step whose fetched word is illegal. Safe. -/
  | invalidOpcode
  deriving DecidableEq, Repr

/-- Why the model would give an instruction no meaning. -/
inductive Refusal where
  /-- For an arm of exec without a meaning, named by its mnemonic. Every instruction has its meaning, so nothing raises
  it. Safe: it stops the run. -/
  | notModelled (mnemonic : String)
  deriving DecidableEq, Repr

/-- The three outcomes of a step of this machine. -/
abbrev Result := Host.Outcome State Fault Refusal

/-- The machine right after POWER_ON (R200, R41): every register at the value of R41's table, and memory with nothing
listed, so that it reads as GLYPH_ROM and zeros (R65). The two counters start at 0 (DESIGN CHOICE, log 3). -/
def State.reset : State where
  v := Vector.replicate 16 0x00
  i := 0x0000
  pc := 0x0200
  sp := 0
  stack := Vector.replicate 16 0x0000
  dt := 0x00
  st := 0x00
  fb := Vector.replicate 32 (Vector.replicate 64 false)
  await := none
  mem := []
  keySamples := 0
  randDraws := 0

end Sys2Proof.Machine
end

