-- ==== Sys2Proof/Machine/Parameters.lean ====
section
/-! DEFINITION. The sizes that spec/00_scope.md R4 fixes and the two parameters that spec/92_eei_decisions.md gives a
default: GLYPH_ROM and STORE_FLOOR. -/

namespace Sys2Proof.Machine

/-- The number of memory cells (R36): addresses 0x000 to 0xFFF. -/
def memSize : Nat := 0x1000

/-- The program's load address and entry point (R203, R56). -/
def programBase : Nat := 0x200

/-- STORE_FLOOR, the lowest address an instruction may store to (R55), at its default 0x050 (decision D12, log 6).
Unsafe for programs that store to 0x050 to 0x1FF, if a build forbids that. -/
def storeFloor : Nat := 0x050

/-- The default GLYPH_ROM (R40): the conventional font of spec/93_implementation_defined.md U9, digits 0 to 7.
PRESUMED (log 4), unsafe: a claim about what a digit looks like rests on it. -/
def glyphsLow : List Byte :=
  [0xF0, 0x90, 0x90, 0x90, 0xF0,
   0x20, 0x60, 0x20, 0x20, 0x70,
   0xF0, 0x10, 0xF0, 0x80, 0xF0,
   0xF0, 0x10, 0xF0, 0x10, 0xF0,
   0x90, 0x90, 0xF0, 0x10, 0x10,
   0xF0, 0x80, 0xF0, 0x10, 0xF0,
   0xF0, 0x80, 0xF0, 0x90, 0xF0,
   0xF0, 0x10, 0x20, 0x40, 0x40]

/-- The default GLYPH_ROM, digits 8 to F (U9; PRESUMED, log 4). -/
def glyphsHigh : List Byte :=
  [0xF0, 0x90, 0xF0, 0x90, 0xF0,
   0xF0, 0x90, 0xF0, 0x10, 0xF0,
   0xF0, 0x90, 0xF0, 0x90, 0x90,
   0xE0, 0x90, 0xE0, 0x90, 0xE0,
   0xF0, 0x80, 0x80, 0x80, 0xF0,
   0xE0, 0x90, 0x90, 0x90, 0xE0,
   0xF0, 0x80, 0xF0, 0x80, 0xF0,
   0xF0, 0x80, 0xF0, 0x80, 0x80]

/-- The default GLYPH_ROM, 80 bytes, digit 0 first. A machine built with another GLYPH_ROM is `powerOn rom`
(Machine/HostPort.lean), whose memory lists the cells that differ. -/
def defaultGlyphRom : List Byte := glyphsLow ++ glyphsHigh

end Sys2Proof.Machine
end

