-- ==== Sys2Proof/Machine/Ops.lean ====
section
/-! DEFINITION. The named operations over registers, the program counter, the call stack, memory and the display: each
piece of state has its one home here. Also what "taking an exception" is on this machine: `raise` ends the operation
with the fault and no change (spec/60_exceptions.md R171, R181); there is no return from one (R182). -/

namespace Sys2Proof.Machine

/-! ## Faults -/

/-- `raise F` (R7): the operation ends with the fault and with no state change at all. A fault saves nothing, transfers
control nowhere and is returned to the caller (R171, R181), so the outcome carries the fault's name only. -/
def raise (f : Fault) : Result := .fault f

/-- Commit the writes of an instruction's rule, or report the fault its evaluation raised (R170 lines 4 and 5). -/
def commit : Except Fault State → Result
  | .ok t => .next t
  | .error f => raise f

/-! ## General registers, I and the timers -/

/-- Read V[r] (R20). -/
def State.reg (s : State) (r : RegIdx) : Byte := s.v[r.val]

/-- V[r] <- b (R20): no register is hard-wired, VF included. -/
def State.setReg (s : State) (r : RegIdx) (b : Byte) : State := { s with v := s.v.set r.val b }

/-- Replace the whole register file, for the block load of Fx65. -/
def State.setRegs (s : State) (v : Vector Byte 16) : State := { s with v := v }

/-- I <- w (R22). -/
def State.setIndex (s : State) (w : Word) : State := { s with i := w }

/-- DT <- b (R31). -/
def State.setDelay (s : State) (b : Byte) : State := { s with dt := b }

/-- ST <- b (R32). -/
def State.setSound (s : State) (b : Byte) : State := { s with st := b }

/-- AWAIT <- a (R35). -/
def State.setAwait (s : State) (a : Option RegIdx) : State := { s with await := a }

/-- MEM replaced by m. -/
def State.setMem (s : State) (m : Memory) : State := { s with mem := m }

/-- FB replaced by d. -/
def State.setDisplay (s : State) (d : Display) : State := { s with fb := d }

/-- One more KEYS sample has been taken (R37, log 2). -/
def State.noteKeySample (s : State) : State := { s with keySamples := s.keySamples + 1 }

/-- One more RAND byte has been drawn (R38, log 1). -/
def State.noteRandDraw (s : State) : State := { s with randDraws := s.randDraws + 1 }

/-! ## Program counter -/

/-- PC <- w. No target is checked for alignment or range (R27, R109; decision D4, log 12). -/
def State.setPc (s : State) (w : Word) : State := { s with pc := w }

/-- The default advance PC <- PC + 2 (R100). A PC that was fetched from cannot wrap (R24). -/
def State.advance (s : State) : State := s.setPc (s.pc + 2)

/-- The skip of R100: PC <- PC + 4 if the condition holds, else PC <- PC + 2. The skipped word is not examined. -/
def State.skipIf (s : State) (c : Bool) : State := s.setPc (if c then s.pc + 4 else s.pc + 2)

/-! ## Call stack (R28 to R30; decision D6, log 8) -/

/-- Push a return address: StackOverflow at depth 16 (R175), else the depth grows by one and the new top slot, numbered by
the old depth, takes the address (R29). -/
def State.push (s : State) (w : Word) : Except Fault State :=
  if h : s.sp.val < 16 then
    .ok { s with sp := ⟨s.sp.val + 1, by omega⟩, stack := s.stack.set s.sp.val w }
  else .error .stackOverflow

/-- Pop a return address: StackUnderflow at depth 0 (R176), else the top entry and the state with the depth one less; the
slot keeps its contents (R29). -/
def State.pop (s : State) : Except Fault (Word × State) :=
  if h : 0 < s.sp.val then
    .ok (s.stack[s.sp.val - 1]'(by omega), { s with sp := ⟨s.sp.val - 1, by omega⟩ })
  else .error .stackUnderflow

/-! ## Memory: canonical form and byte access -/

/-- What an unlisted address reads as: the contents after POWER_ON (R65), GLYPH_ROM below 0x050 and 0x00 above. The zero
fill is the spec's decision D13 (log 5); the bitmaps are the default of R40 (log 4). -/
def Memory.unlisted (a : Nat) : Byte := defaultGlyphRom.getD a 0x00

/-- The contents of the cell at an address. -/
def Memory.read : Memory → Nat → Byte
  | [], a => Memory.unlisted a
  | (b, w) :: m, a => if a = b then w else Memory.read m a

/-- Remove every entry of an address (a memory in canonical form has at most one). -/
def Memory.erase : Memory → Nat → Memory
  | [], _ => []
  | (b, w) :: m, a => if a = b then Memory.erase m a else (b, w) :: Memory.erase m a

/-- Put an entry in its place in the rising order, replacing the one of the same address. -/
def Memory.insert : Memory → Nat → Byte → Memory
  | [], a, x => [(a, x)]
  | (b, w) :: m, a, x =>
    if a < b then (a, x) :: (b, w) :: m
    else if a = b then (a, x) :: m
    else (b, w) :: Memory.insert m a x

/-- MEM[a] <- x, keeping the canonical form: writing what an unlisted address reads as removes the entry. -/
def Memory.write (m : Memory) (a : Nat) (x : Byte) : Memory :=
  if x = Memory.unlisted a then m.erase a else m.insert a x

/-- The bytes of a list written at a, a + 1, and so on. -/
def Memory.writeBytes : Memory → Nat → List Byte → Memory
  | m, _, [] => m
  | m, a, x :: xs => Memory.writeBytes (m.write a x) (a + 1) xs

/-- The n bytes at a, a + 1, and so on. -/
def Memory.readBytes (m : Memory) : Nat → Nat → List Byte
  | _, 0 => []
  | a, n + 1 => m.read a :: Memory.readBytes m (a + 1) n

/-- The entries from some address on are in canonical form: addresses rising from lo, each below 4096, none equal to what
an unlisted address reads as. -/
def Memory.wfFrom : Nat → Memory → Bool
  | _, [] => true
  | lo, (b, w) :: m => decide (lo ≤ b) && decide (b < memSize) && decide (w ≠ Memory.unlisted b) && Memory.wfFrom (b + 1) m

/-- The canonical form of a memory. -/
def Memory.wf (m : Memory) : Bool := Memory.wfFrom 0 m

/-! ## Memory: the machine's primitives -/

/-- `MemRead(addr, 1)` (R50): AddressOutOfRange from 4096 on; no side effect. -/
def State.memRead (s : State) (a : Nat) : Except Fault Byte :=
  if a < memSize then .ok (s.mem.read a) else .error .addressOutOfRange

/-- `MemWrite(addr, 1, v)` (R51): AddressOutOfRange from 4096 on, else one cell changes; the glyph region included. -/
def State.memWrite (s : State) (a : Nat) (x : Byte) : Except Fault State :=
  if a < memSize then .ok (s.setMem (s.mem.write a x)) else .error .addressOutOfRange

/-- The load of the m bytes at a .. a+m-1 (R64): the whole range is checked first; an empty range cannot fail. The
address is an integer and does not wrap (R9). -/
def State.loadRange (s : State) (a m : Nat) : Except Fault (List Byte) :=
  if 1 ≤ m ∧ memSize ≤ a + m - 1 then .error .addressOutOfRange else .ok (s.mem.readBytes a m)

/-- `StoreByte` on a range (R55, R64): the store an instruction makes. The range is checked whole, then the glyph guard
on its lowest address, and only then are the bytes written. -/
def State.storeRange (s : State) (a : Nat) (xs : List Byte) : Except Fault State :=
  if 1 ≤ xs.length ∧ memSize ≤ a + xs.length - 1 then .error .addressOutOfRange
  else if 1 ≤ xs.length ∧ a < storeFloor then .error .addressOutOfRange
  else .ok (s.setMem (s.mem.writeBytes a xs))

/-- `Fetch(PC)` (R53): two byte reads, big-endian; it does not advance PC. -/
def State.fetch (s : State) : Except Fault Word :=
  match s.memRead s.pc.toNat with
  | .error f => .error f
  | .ok hi =>
    match s.memRead (s.pc.toNat + 1) with
    | .error f => .error f
    | .ok lo => .ok (wordOfBytes hi lo)

/-! ## Display (R33, R34) -/

/-- FB[v mod 32][h mod 64]: the pixel at any non-negative coordinates, with wraparound (R34). -/
def Display.pixel (d : Display) (row col : Nat) : Bool :=
  (d[row % 32]'(Nat.mod_lt _ (by decide)))[col % 64]'(Nat.mod_lt _ (by decide))

/-- Flip the pixel at the same coordinates. -/
def Display.flip (d : Display) (row col : Nat) : Display :=
  d.set (row % 32)
    ((d[row % 32]'(Nat.mod_lt _ (by decide))).set (col % 64) (!d.pixel row col) (Nat.mod_lt _ (by decide)))
    (Nat.mod_lt _ (by decide))

/-- Every pixel unlit. -/
def Display.blank : Display := Vector.replicate 32 (Vector.replicate 64 false)

/-- One pixel of a sprite under a 1 bit (R151): remember whether it was lit, then flip it. -/
def drawPixel (d : Display × Bool) (row col : Nat) : Display × Bool :=
  (d.1.flip row col, d.2 || d.1.pixel row col)

/-- One row of a sprite (R151): bit 7 - c of the byte is the pixel at column offset c. Bit 7 as the lowest column is
PRESUMED (R151, decision D15, log 10). -/
def drawRow (b : Byte) (row h0 : Nat) (d : Display × Bool) : Display × Bool :=
  (List.range 8).foldl (fun d c => if b.getLsbD (7 - c) then drawPixel d row (h0 + c) else d) d

/-- The rows of a sprite, one byte each, downward from a row (R151). The flag of the pair is the collision so far. -/
def drawRows : List Byte → Nat → Nat → Display × Bool → Display × Bool
  | [], _, _, d => d
  | b :: bs, row, h0, d => drawRows bs (row + 1) h0 (drawRow b row h0 d)

end Sys2Proof.Machine
end

