-- ==== Sys2Proof/Machine/Operands.lean ====
section
/-! DEFINITION. The operand forms of the instructions (spec/30_encoding.md R83, spec/42_index_memory.md R146): zero
extension, the low-nibble digit, the glyph address, the decimal digits, and the implicit register range V0 to Vx. -/

namespace Sys2Proof.Machine

/-- zext_16(nnn) (R83). -/
def zextAddr (nnn : Addr12) : Word := nnn.setWidth 16

/-- zext_16(b) (R83). -/
def zextByte (b : Byte) : Word := b.setWidth 16

/-- b[3:0] as a digit or key number 0 to 15: the high nibble is ignored (R142, R160; decisions D9 and D10, log 14). -/
def lowNibble (b : Byte) : Fin 16 := (b.extractLsb' 0 4).toFin

/-- The glyph address 5 * d of a digit (R142; order of the glyphs by decision D14, log 4). -/
def glyphAddress (d : Fin 16) : Word := BitVec.ofNat 16 (5 * d.val)

/-- The hundreds, tens and ones of a byte, each a number 0 to 9 in its own byte (R143). -/
def bcdDigits (b : Byte) : List Byte :=
  [BitVec.ofNat 8 (b.toNat / 100), BitVec.ofNat 8 (b.toNat / 10 % 10), BitVec.ofNat 8 (b.toNat % 10)]

/-- V0 to Vx inclusive, in ascending order (R144). -/
def State.regsUpTo (s : State) (x : RegIdx) : List Byte := s.v.toList.take (x.val + 1)

/-- A register file with the bytes of a list put into the registers from index k up (R145). -/
def fillRegs : Vector Byte 16 → Nat → List Byte → Vector Byte 16
  | v, _, [] => v
  | v, k, b :: bs => fillRegs (v.setIfInBounds k b) (k + 1) bs

/-- The base of every data access, I as an integer (R146, R9). -/
def State.base (s : State) : Nat := s.i.toNat

end Sys2Proof.Machine
end

