-- ==== Sys2Proof/Machine/Flags.lean ====
section
/-! DEFINITION. The 8-bit results and the VF flag of the arithmetic instructions (spec/41_alu.md R126 to R133): operands
as integers, the exact result, then the narrowing to 8 bits. -/

namespace Sys2Proof.Machine

/-- A flag as the byte VF takes: 0x01 or 0x00 (R21). -/
def flagByte (f : Bool) : Byte := if f then 0x01 else 0x00

/-- (a + b) mod 256 (R121, R126). -/
def addResult (a b : Byte) : Byte := BitVec.ofNat 8 (a.toNat + b.toNat)

/-- The carry out of bit 7: the exact sum is above 255 (R126). -/
def addCarry (a b : Byte) : Bool := decide (a.toNat + b.toNat > 255)

/-- (a - b) mod 256, the mathematical remainder (R127, R129). -/
def subResult (a b : Byte) : Byte := BitVec.ofInt 8 ((a.toNat : Int) - (b.toNat : Int))

/-- No borrow: the minuend is at least the subtrahend (R127, R129, R132). -/
def noBorrow (a b : Byte) : Bool := decide (a.toNat ≥ b.toNat)

/-- a >> 1, logical (R128). -/
def shrResult (a : Byte) : Byte := a >>> 1

/-- Bit 0 before the shift (R128). -/
def shrFlag (a : Byte) : Bool := a.getLsbD 0

/-- (a << 1) mod 256 (R130). -/
def shlResult (a : Byte) : Byte := a <<< 1

/-- Bit 7 before the shift (R130). -/
def shlFlag (a : Byte) : Bool := a.getLsbD 7

/-- V[x] <- result, then V[15] <- flag (R133): both values come from the registers before the instruction, and the flag is
written last, so it wins when x is 15 (decision D7, log 9). -/
def State.setResultAndFlag (s : State) (x : RegIdx) (result : Byte) (flag : Bool) : State :=
  (s.setReg x result).setReg vf (flagByte flag)

end Sys2Proof.Machine
end

