-- ==== Sys2Proof/Machine/Alu.lean ====
section
/-! DEFINITION. Register loads and the 8-bit ALU (spec/41_alu.md): 6xkk, 7xkk, 8xy0 to 8xy7, 8xyE, Cxkk. None of them can
fault, every one ends with the default advance, and every operand is read before any write (R7). -/

namespace Sys2Proof.Machine

/-- V[x] <- b and the default advance: the shape of every instruction here that writes no flag (R8, log 11). -/
def State.writeAndAdvance (s : State) (x : RegIdx) (b : Byte) : Result := .next (s.setReg x b).advance

/-- Result, flag and the default advance: the shape of the flag-writing instructions (R133). -/
def State.flagAndAdvance (s : State) (x : RegIdx) (result : Byte) (flag : Bool) : Result :=
  .next (s.setResultAndFlag x result flag).advance

/-- 6xkk (R120). -/
def execLdVxKk (x : RegIdx) (kk : Byte) (s : State) : Result := s.writeAndAdvance x kk

/-- 7xkk (R121): wrapping, no flag. -/
def execAddVxKk (x : RegIdx) (kk : Byte) (s : State) : Result := s.writeAndAdvance x (addResult (s.reg x) kk)

/-- 8xy0 (R122). -/
def execLdVxVy (x y : RegIdx) (s : State) : Result := s.writeAndAdvance x (s.reg y)

/-- 8xy1 (R123). -/
def execOrVxVy (x y : RegIdx) (s : State) : Result := s.writeAndAdvance x (s.reg x ||| s.reg y)

/-- 8xy2 (R124). -/
def execAndVxVy (x y : RegIdx) (s : State) : Result := s.writeAndAdvance x (s.reg x &&& s.reg y)

/-- 8xy3 (R125). -/
def execXorVxVy (x y : RegIdx) (s : State) : Result := s.writeAndAdvance x (s.reg x ^^^ s.reg y)

/-- 8xy4 (R126). -/
def execAddVxVy (x y : RegIdx) (s : State) : Result :=
  s.flagAndAdvance x (addResult (s.reg x) (s.reg y)) (addCarry (s.reg x) (s.reg y))

/-- 8xy5 (R127). -/
def execSubVxVy (x y : RegIdx) (s : State) : Result :=
  s.flagAndAdvance x (subResult (s.reg x) (s.reg y)) (noBorrow (s.reg x) (s.reg y))

/-- 8xy6 (R128): Vx is shifted in place and Vy is not read. -/
def execShrVx (x _y : RegIdx) (s : State) : Result :=
  s.flagAndAdvance x (shrResult (s.reg x)) (shrFlag (s.reg x))

/-- 8xy7 (R129). -/
def execSubnVxVy (x y : RegIdx) (s : State) : Result :=
  s.flagAndAdvance x (subResult (s.reg y) (s.reg x)) (noBorrow (s.reg y) (s.reg x))

/-- 8xyE (R130): Vx is shifted in place and Vy is not read. -/
def execShlVx (x _y : RegIdx) (s : State) : Result :=
  s.flagAndAdvance x (shlResult (s.reg x)) (shlFlag (s.reg x))

/-- Cxkk with the draw r given (R131). -/
def randomAnd (r : Byte) (x : RegIdx) (kk : Byte) (s : State) : Result :=
  s.noteRandDraw.writeAndAdvance x (r &&& kk)

/-- Cxkk (R131): the draw is the next free input value (log 1). -/
def execRndVxKk (x : RegIdx) (kk : Byte) (s : State) : Result := randomAnd (Config.randByte s.randDraws) x kk s

end Sys2Proof.Machine
end

