-- ==== Sys2Proof/Machine/Display.lean ====
section
/-! DEFINITION. The display instructions (spec/43_display.md): 00E0, Dxyn. -/

namespace Sys2Proof.Machine

/-- 00E0 (R150): every pixel unlit; VF is not written. -/
def execCls (s : State) : Result := .next (s.setDisplay Display.blank).advance

/-- Dxyn (R151, R152): the n bytes at I, one row each, flipped onto the display at (Vx, Vy) with wraparound; VF is the
collision flag, written always, also for n = 0. The coordinates are read before VF is written. -/
def execDrwVxVyN (x y : RegIdx) (n : Nibble) (s : State) : Result :=
  commit <|
    match s.loadRange s.base n.toNat with
    | .error f => .error f
    | .ok rows =>
      let d := drawRows rows (s.reg y).toNat (s.reg x).toNat (s.fb, false)
      .ok ((s.setDisplay d.1).setReg vf (flagByte d.2)).advance

end Sys2Proof.Machine
end

