-- ==== Sys2Proof/Machine/Flow.lean ====
section
/-! DEFINITION. Control transfer (spec/40_flow.md): 00EE, 1nnn, 2nnn, Bnnn, 3xkk, 4xkk, 5xy0, 9xy0. In every meaning PC
is the address of the instruction itself (R23). -/

namespace Sys2Proof.Machine

/-- 00EE (R101): pop the stack into PC; no advance after the pop. -/
def execRet (s : State) : Result :=
  commit <|
    match s.pop with
    | .error f => .error f
    | .ok (w, t) => .ok (t.setPc w)

/-- 1nnn (R102). -/
def execJp (nnn : Addr12) (s : State) : Result := .next (s.setPc (zextAddr nnn))

/-- 2nnn (R103): the return address pushed is PC + 2 (decision D5, log 8). -/
def execCall (nnn : Addr12) (s : State) : Result :=
  commit <|
    match s.push (s.pc + 2) with
    | .error f => .error f
    | .ok t => .ok (t.setPc (zextAddr nnn))

/-- Bnnn (R104): the register is always V0. -/
def execJpV0Nnn (nnn : Addr12) (s : State) : Result := .next (s.setPc (zextAddr nnn + zextByte (s.reg v0)))

/-- 3xkk (R105). -/
def execSeVxKk (x : RegIdx) (kk : Byte) (s : State) : Result := .next (s.skipIf (s.reg x == kk))

/-- 4xkk (R106). -/
def execSneVxKk (x : RegIdx) (kk : Byte) (s : State) : Result := .next (s.skipIf (s.reg x != kk))

/-- 5xy0 (R107). -/
def execSeVxVy (x y : RegIdx) (s : State) : Result := .next (s.skipIf (s.reg x == s.reg y))

/-- 9xy0 (R108). -/
def execSneVxVy (x y : RegIdx) (s : State) : Result := .next (s.skipIf (s.reg x != s.reg y))

end Sys2Proof.Machine
end

