-- ==== Sys2Proof/Machine/IndexMemory.lean ====
section
/-! DEFINITION. The index register, loads and stores (spec/42_index_memory.md): Annn, Fx1E, Fx29, Fx33, Fx55, Fx65. I is
left unchanged by the loads and stores (R146, decision D11, log 11); a range is checked whole before any byte moves. -/

namespace Sys2Proof.Machine

/-- Annn (R140). -/
def execLdINnn (nnn : Addr12) (s : State) : Result := .next (s.setIndex (zextAddr nnn)).advance

/-- Fx1E (R141): the low 16 bits of the sum (decision D8, log 13); VF is not written. -/
def execAddIVx (x : RegIdx) (s : State) : Result := .next (s.setIndex (s.i + zextByte (s.reg x))).advance

/-- Fx29 (R142): the glyph of the low nibble of Vx. -/
def execLdFVx (x : RegIdx) (s : State) : Result := .next (s.setIndex (glyphAddress (lowNibble (s.reg x)))).advance

/-- Store a run of bytes at I and advance, or fault with nothing stored: the shape of Fx33 and Fx55 (R55). -/
def State.storeAndAdvance (s : State) (xs : List Byte) : Result :=
  commit <|
    match s.storeRange s.base xs with
    | .error f => .error f
    | .ok t => .ok t.advance

/-- Fx33 (R143): hundreds at I, tens at I + 1, ones at I + 2. -/
def execLdBVx (x : RegIdx) (s : State) : Result := s.storeAndAdvance (bcdDigits (s.reg x))

/-- Fx55 (R144): x + 1 bytes, V0 at I. -/
def execLdMiVx (x : RegIdx) (s : State) : Result := s.storeAndAdvance (s.regsUpTo x)

/-- Fx65 (R145): x + 1 bytes, V0 from I; no register changes if any byte is out of range. -/
def execLdVxMi (x : RegIdx) (s : State) : Result :=
  commit <|
    match s.loadRange s.base (x.val + 1) with
    | .error f => .error f
    | .ok xs => .ok (s.setRegs (fillRegs s.v 0 xs)).advance

end Sys2Proof.Machine
end

