-- ==== Sys2Proof/Machine/KeypadTimers.lean ====
section
/-! DEFINITION. Keypad and timer instructions (spec/44_keypad_timers.md): Ex9E, ExA1, Fx0A, Fx07, Fx15, Fx18. None can
fault. -/

namespace Sys2Proof.Machine

/-- Skip if the key named by the low nibble of Vx has the level `want`, with the key levels given (R160, R161). -/
def skipOnKey (keys : BitVec 16) (want : Bool) (x : RegIdx) (s : State) : Result :=
  .next (s.noteKeySample.skipIf (keys.getLsbD (lowNibble (s.reg x)).val == want))

/-- Ex9E (R160): the levels are the next free input value (log 2). -/
def execSkpVx (x : RegIdx) (s : State) : Result := skipOnKey (Config.keyLevels s.keySamples) true x s

/-- ExA1 (R161): the levels are the next free input value (log 2). -/
def execSknpVx (x : RegIdx) (s : State) : Result := skipOnKey (Config.keyLevels s.keySamples) false x s

/-- Fx0A (R162): the wait is entered; neither PC nor Vx changes. It ends by KEY_DELIVER or RESET (Machine/HostPort.lean). -/
def execLdVxK (x : RegIdx) (s : State) : Result := .next (s.setAwait (some x))

/-- Fx07 (R164). -/
def execLdVxDt (x : RegIdx) (s : State) : Result := .next (s.setReg x s.dt).advance

/-- Fx15 (R165). -/
def execLdDtVx (x : RegIdx) (s : State) : Result := .next (s.setDelay (s.reg x)).advance

/-- Fx18 (R166). -/
def execLdStVx (x : RegIdx) (s : State) : Result := .next (s.setSound (s.reg x)).advance

end Sys2Proof.Machine
end

