-- ==== Sys2Proof/Machine/Cycle.lean ====
section
/-! DEFINITION. One STEP (spec/60_exceptions.md R170): Held, fetch, decode, the instruction's rule, commit. -/

namespace Sys2Proof.Machine

/-- STEP in the order of R170. While a key wait is pending the step is Held: it fetches nothing, changes nothing and
reports no fault (R162; decision D17, log 7), so its next state is the state itself. An illegal word raises InvalidOpcode
and PC stays on it (R177). The priority of R180 is the order of the lines. -/
def stepOnce (s : State) : Result :=
  match s.await with
  | some _ => .next s
  | none =>
    match s.fetch with
    | .error f => raise f
    | .ok w =>
      match decodeWord w with
      | .error _ => raise .invalidOpcode
      | .ok i => exec i s

/-- The address at which a placed instruction is fetched: PC where a fetch from it succeeds (R53), else the entry
point 0x200 (log 19). -/
def placeAddress (s : State) : Nat := if s.pc.toNat ≤ 0xFFE then s.pc.toNat else programBase

/-- The state with a word stored where the next step fetches it and nothing else changed, but that no key wait is pending
(a pending wait fetches nothing) and that PC is a fetchable address (log 19). -/
def placeWord (s : State) (w : Word) : State :=
  { s with
    pc := BitVec.ofNat 16 (placeAddress s)
    await := none
    mem := s.mem.writeBytes (placeAddress s) (bytesOfWord w) }

end Sys2Proof.Machine
end

