-- ==== Sys2Proof/Machine/Step.lean ====
section
/-! DEFINITION. The machine's step, and a word placed where it fetches. Both only call Machine/Cycle.lean. -/

namespace Sys2Proof.Machine

/-- One STEP operation (R170). -/
def step (s : State) : Host.Outcome State Fault Refusal := stepOnce s

/-- The state with the instruction of the table's numbering stored where `step` fetches its next instruction: the program
loader (R194) stands behind it (log 19). -/
def State.withFetchWord (s : State) (nbits w : Nat) : State := placeWord s (tableWord nbits w)

end Sys2Proof.Machine
end

