-- ==== Sys2Proof/Machine/HostPort.lean ====
section
/-! DEFINITION. The operations of spec/00_scope.md R10 that the environment invokes between steps, the replies of
spec/60_exceptions.md R193 with their numeric codes (R172), and `perform`, which gives every operation its reply and its next state. A list of operations
is any interleaving of whole operations (R212). `Machine.step` is the operation STEP alone (log 7). -/

namespace Sys2Proof.Machine

/-- TICK (R185): each timer goes down by one unless it is 0; nothing else changes. -/
def tick (s : State) : State :=
  (s.setDelay (if s.dt = 0x00 then s.dt else s.dt - 1)).setSound (if s.st = 0x00 then s.st else s.st - 1)

/-- KEY_DELIVER(k) (R163): fills the waiting register, advances PC and ends the wait; ignored, and not queued, when no
wait is pending (decision D18, log 15). -/
def keyDeliver (k : Nibble) (s : State) : State :=
  match s.await with
  | none => s
  | some r => ((s.setReg r (k.setWidth 8)).advance).setAwait none

/-- RESET (R201): every field at its reset value but MEM, which is kept (decision D19, log 16). The two counters of the
free inputs are the model's, not the core's, and go on (log 3). -/
def resetCore (s : State) : State :=
  { State.reset with mem := s.mem, keySamples := s.keySamples, randDraws := s.randDraws }

/-- The memory after POWER_ON with a given GLYPH_ROM (R65): its 80 bytes, then zeros. -/
def powerOnMemory (rom : Vector Byte 80) : Memory := Memory.writeBytes [] 0 rom.toList

/-- POWER_ON(GLYPH_ROM) (R200): the reset state with that memory (decision D19, log 16). The host invokes it once per
session; that it may come again, and then builds core and memory anew from any state, is the model's choice (DESIGN CHOICE,
log 25). The counters of the free inputs go on (log 3). -/
def powerOn (rom : Vector Byte 80) (s : State) : State := { resetCore s with mem := powerOnMemory rom }

/-- LOAD_PROGRAM(bytes) (R56): ProgramTooLarge if the bytes pass the end of memory, else they are written from 0x200 up;
no core state changes, and any state may be loaded into (decision D24, log 17). -/
def loadProgram (bytes : List Byte) (s : State) : Except Fault State :=
  if programBase + bytes.length > memSize then .error .programTooLarge
  else .ok (s.setMem (s.mem.writeBytes programBase bytes))

/-- The operations the environment invokes (R10, R15). -/
inductive Operation where
  /-- POWER_ON with the glyph table it is built with; accepted at any point of a run (DESIGN CHOICE, log 25). -/
  | powerOn (rom : Vector Byte 80)
  /-- RESET. -/
  | reset
  /-- LOAD_PROGRAM. -/
  | loadProgram (bytes : List Byte)
  /-- STEP. -/
  | step
  /-- TICK. -/
  | tick
  /-- KEY_DELIVER of a key number. -/
  | keyDeliver (k : Nibble)
  /-- The host's MemRead. -/
  | memRead (addr : Nat)
  /-- The host's MemWrite. -/
  | memWrite (addr : Nat) (b : Byte)
  deriving DecidableEq, Repr

/-- The outcome of an operation (R193). -/
inductive Reply where
  /-- Ok. -/
  | ok
  /-- Ok with the byte of a MemRead. -/
  | okByte (b : Byte)
  /-- Held: a STEP made while a key wait is pending (R162). -/
  | held
  /-- Fault(F). -/
  | fault (f : Fault)
  /-- No meaning: no operation answers so, since every instruction has its meaning. -/
  | refused (r : Refusal)
  deriving DecidableEq, Repr

/-- The numeric code of a fault (the table of R172): the spec's own numbering (decision D22, log 23). -/
def faultCode : Fault → Nat
  | .addressOutOfRange => 1
  | .programTooLarge => 2
  | .stackOverflow => 3
  | .stackUnderflow => 4
  | .invalidOpcode => 5

/-- The numeric code of an outcome, for a port that reports it: 0 where there is no fault, Held among them (R172; decision
D22, log 23). No meaning is no outcome of R193 and has no code. -/
def outcomeCode : Reply → Option Nat
  | .ok | .okByte _ | .held => some 0
  | .fault f => some (faultCode f)
  | .refused _ => none

/-- The reply of an operation that can only fault or succeed, with the state kept on a fault (R171). -/
def replyOf (s : State) : Except Fault State → Reply × State
  | .ok t => (.ok, t)
  | .error f => (.fault f, s)

/-- The reply of a STEP (R193): Held where a key wait is pending, else as the step ended. -/
def replyOfStep (s : State) : Reply × State :=
  match s.await with
  | some _ => (.held, s)
  | none =>
    match step s with
    | .next t => (.ok, t)
    | .fault f => (.fault f, s)
    | .refused r => (.refused r, s)

/-- One operation: its reply and the state after it. -/
def perform (op : Operation) (s : State) : Reply × State :=
  match op with
  | .powerOn rom => (.ok, Sys2Proof.Machine.powerOn rom s)
  | .reset => (.ok, resetCore s)
  | .loadProgram bytes => replyOf s (Sys2Proof.Machine.loadProgram bytes s)
  | .step => replyOfStep s
  | .tick => (.ok, Sys2Proof.Machine.tick s)
  | .keyDeliver k => (.ok, Sys2Proof.Machine.keyDeliver k s)
  | .memRead a =>
    match s.memRead a with
    | .ok b => (.okByte b, s)
    | .error f => (.fault f, s)
  | .memWrite a b => replyOf s (s.memWrite a b)

/-- A list of operations in the order the environment invokes them (R61). -/
def performAll : List Operation → State → State
  | [], s => s
  | op :: ops, s => performAll ops (perform op s).2

end Sys2Proof.Machine
end

