-- ==== Sys2Proof/Safety.lean ====
section
/-! DEFINITION. The terms in which statements about the machine are made: its parts and what leaving one unchanged means
(the frame of an instruction, spec/00_scope.md R8), the invariant of spec/10_state.md R24, R30 and the memory's canonical
form, and what a key wait points at. -/

namespace Sys2Proof.Machine

/-! ## Frames -/

/-- A part of the state, as small as the spec names them: one register, one stack slot, one pixel, one byte of memory. -/
inductive Part where
  /-- V[r]. -/
  | reg (r : RegIdx)
  /-- I. -/
  | index
  /-- PC. -/
  | pc
  /-- SP. -/
  | depth
  /-- STACK[j]. -/
  | slot (j : Fin 16)
  /-- DT. -/
  | delay
  /-- ST. -/
  | sound
  /-- FB[row][col]. -/
  | pixel (row : Fin 32) (col : Fin 64)
  /-- AWAIT. -/
  | await
  /-- MEM[a], through the model's read of one byte. -/
  | byte (a : Nat)
  /-- The model's count of KEYS samples. -/
  | keySamples
  /-- The model's count of RAND draws. -/
  | randDraws
  deriving DecidableEq, Repr

/-- The part has the same value in both states. -/
def Part.SameIn (s t : State) : Part → Prop
  | .reg r => t.reg r = s.reg r
  | .index => t.i = s.i
  | .pc => t.pc = s.pc
  | .depth => t.sp = s.sp
  | .slot j => t.stack[j.val] = s.stack[j.val]
  | .delay => t.dt = s.dt
  | .sound => t.st = s.st
  | .pixel row col => t.fb.pixel row.val col.val = s.fb.pixel row.val col.val
  | .await => t.await = s.await
  | .byte a => t.mem.read a = s.mem.read a
  | .keySamples => t.keySamples = s.keySamples
  | .randDraws => t.randDraws = s.randDraws

/-- From s to t only parts of the given kind may change: every other part, each byte of memory among them, is as before. -/
def OnlyChanges (may : Part → Prop) (s t : State) : Prop := ∀ p : Part, ¬ may p → p.SameIn s t

/-! ## Invariants -/

/-- What holds of every reachable state: memory is in canonical form, PC is at most 0x10FE and every stack entry at most
0x1000 (R24), and while a key wait is pending PC is an address that was fetched from. SP is 0 to 16 by its type (R30). -/
abbrev Invariant (s : State) : Prop :=
  s.mem.wf = true ∧ s.pc.toNat ≤ 0x10FE ∧ (∀ j : Fin 16, s.stack[j.val].toNat ≤ 0x1000) ∧
    (s.await.isSome = true → s.pc.toNat ≤ 0xFFE)

/-- A pending key wait points at its own instruction: the word at PC is the Fx0A of the waiting register (R162). -/
def WaitAtItsInstruction (s : State) : Prop :=
  ∀ r, s.await = some r → ∃ w, s.fetch = .ok w ∧ decodeWord w = .ok (.ldVxK r)

/-! ## Safe runs -/

/-- A step is safe when it ends in a next state: neither a fault nor a refusal. -/
def SafeStep (s : State) : Prop := ∃ t, step s = .next t

/-- A list of instructions executed one after the other, stopping at the first fault or refusal. -/
def execAll : List Instr → State → Result
  | [], s => .next s
  | i :: is, s =>
    match exec i s with
    | .next t => execAll is t
    | .fault f => .fault f
    | .refused r => .refused r

/-! ## Who writes what -/

/-- The instructions that may change VF: the six that write it as a flag (R21), and any that names it as its destination
or, for Fx65, in its range (R8). -/
def MayWriteVf : Instr → Prop
  | .addVxVy _ _ | .subVxVy _ _ | .shrVx _ _ | .subnVxVy _ _ | .shlVx _ _ | .drwVxVyN _ _ _ => True
  | .ldVxKk x _ | .addVxKk x _ | .ldVxVy x _ | .orVxVy x _ | .andVxVy x _ | .xorVxVy x _ | .rndVxKk x _ => x = vf
  | .ldVxDt x | .ldVxMi x => x = vf
  | _ => False

/-- The jumps, the call and the return: the only instructions whose new PC may have another parity (R27). -/
def Transfers : Instr → Prop
  | .jp _ | .call _ | .jpV0Nnn _ | .ret => True
  | _ => False

/-- A 1 bit of the sprite of Dxyn lies on the pixel (R151, R152): some row offset r below n and some column offset c below
8 lead there after wraparound, and bit 7 - c of the byte at I + r is 1. -/
def SpriteCovers (x y : RegIdx) (n : Nibble) (s : State) (row : Fin 32) (col : Fin 64) : Prop :=
  ∃ r c : Nat, r < n.toNat ∧ c < 8 ∧ ((s.reg y).toNat + r) % 32 = row.val ∧ ((s.reg x).toNat + c) % 64 = col.val ∧
    (s.mem.read (s.base + r)).getLsbD (7 - c) = true

/-- Two states that differ at most in the sound timer. -/
def SameButSound (s t : State) : Prop := t = s.setSound t.st

/-- Two outcomes that agree, but for the sound timer of the next state. -/
def OutcomesSameButSound : Result → Result → Prop
  | .next s, .next t => SameButSound s t
  | .fault f, .fault g => f = g
  | .refused q, .refused r => q = r
  | _, _ => False

end Sys2Proof.Machine
end

