-- ==== Sys2Proof/Certificates/Slice0/Obligations.lean ====
section
/-! DEFINITION. The statements for the provers. Each docstring names the rule or section of spec/ it formalises. Where a
clause rests on a decision the spec marks as its own, the docstring says so and names the log entry
(notes/assumptions/<n>.md); such a statement has basis 'derived' in OBLIGATIONS.json. -/

open Sys2Proof Sys2Proof.Machine

/-! ## Encoding (spec/30_encoding.md) -/

/-- Sections 1 and 2 (fields, formats, opcode map): the decoder gives back every encoded instruction, with every operand
at every value its field admits. That 8xy6 and 8xyE have their ignored y among the operands is the model's own
representation (log 24). -/
def Obligations.DecodeAfterEncode : Prop := ∀ i : Instr, decodeWord (encode i) = .ok i

/-- Sections 1 and 2: a word has at most one meaning and none of its bits is dropped. That a fixed digit is not dropped
either (5xy1 is not taken for 5xy0) is the spec's decision D20 (log 12); that the ignored y of 8xy6 and 8xyE comes back is
the model's own representation, which keeps it in the constructor (log 24). -/
def Obligations.EncodeAfterDecode : Prop := ∀ (w : Word) (i : Instr), decodeWord w = .ok i → encode i = w

/-- Section 3: the words the decoder rejects are exactly the six listed classes, each by its own name, so it is total on
all words. The strictness of the fixed digits is the spec's decision D20 (log 12). -/
def Obligations.DecoderRejectsExactlyTheListedWords : Prop :=
  ∀ (w : Word) (c : IllegalClass), decodeWord w = .error c ↔ illegalClass w = some c

/-- Sections 1 and 2, the patterns as numbers: for every value of the fields, the word with the digits of an instruction's
pattern decodes to that instruction. Every constructor stands in one of the five lists. That the ignored y of 8xy6 and
8xyE is an operand is the model's own representation (log 24). -/
def Obligations.DecoderReadsEveryPattern : Prop :=
  ∀ (x y : RegIdx) (kk : Byte) (nnn : Addr12) (n : Nibble),
    (∀ p ∈ [(0x00E0, Instr.cls), (0x00EE, .ret)], decodeWord (BitVec.ofNat 16 p.1) = .ok p.2) ∧
    (∀ p ∈ [(0x1000, Instr.jp nnn), (0x2000, .call nnn), (0xA000, .ldINnn nnn), (0xB000, .jpV0Nnn nnn)],
      decodeWord (BitVec.ofNat 16 (p.1 + nnn.toNat)) = .ok p.2) ∧
    (∀ p ∈ [(0x3000, Instr.seVxKk x kk), (0x4000, .sneVxKk x kk), (0x6000, .ldVxKk x kk), (0x7000, .addVxKk x kk),
        (0xC000, .rndVxKk x kk)],
      decodeWord (BitVec.ofNat 16 (p.1 + 0x100 * x.val + kk.toNat)) = .ok p.2) ∧
    (∀ p ∈ [(0x5000, Instr.seVxVy x y), (0x8000, .ldVxVy x y), (0x8001, .orVxVy x y), (0x8002, .andVxVy x y),
        (0x8003, .xorVxVy x y), (0x8004, .addVxVy x y), (0x8005, .subVxVy x y), (0x8006, .shrVx x y),
        (0x8007, .subnVxVy x y), (0x800E, .shlVx x y), (0x9000, .sneVxVy x y), (0xD000 + n.toNat, .drwVxVyN x y n)],
      decodeWord (BitVec.ofNat 16 (p.1 + 0x100 * x.val + 0x10 * y.val)) = .ok p.2) ∧
    (∀ p ∈ [(0xE09E, Instr.skpVx x), (0xE0A1, .sknpVx x), (0xF007, .ldVxDt x), (0xF00A, .ldVxK x), (0xF015, .ldDtVx x),
        (0xF018, .ldStVx x), (0xF01E, .addIVx x), (0xF029, .ldFVx x), (0xF033, .ldBVx x), (0xF055, .ldMiVx x),
        (0xF065, .ldVxMi x)],
      decodeWord (BitVec.ofNat 16 (p.1 + 0x100 * x.val)) = .ok p.2)

/-- spec/95_test_vectors.md Part 2: some of its words, written out there bit by bit from the patterns. That the
last three are illegal is the spec's decision D20 (log 12), the y of the fourth the model's own representation (log 24). -/
def Obligations.SpecWordsDecode : Prop :=
  decodeWord 0x00E0#16 = .ok .cls ∧ decodeWord 0x2ABC#16 = .ok (.call 0xABC#12) ∧
  decodeWord 0x3A7F#16 = .ok (.seVxKk 10 0x7F#8) ∧ decodeWord 0x83F6#16 = .ok (.shrVx 3 15) ∧
  decodeWord 0xD125#16 = .ok (.drwVxVyN 1 2 5#4) ∧ decodeWord 0xE3A1#16 = .ok (.sknpVx 3) ∧
  decodeWord 0xFF55#16 = .ok (.ldMiVx 15) ∧ decodeWord 0x0000#16 = .error .zeroGroup ∧
  decodeWord 0x812A#16 = .error .eightGroup ∧ decodeWord 0xF030#16 = .error .miscGroup

/-! ## The step (spec/60_exceptions.md section 1) -/

/-- Section 1, lines 2 to 5 of the step: with no key wait pending, a step runs the instruction whose two bytes stand at
PC, high byte first; the reply to a step that ends in a next state is Ok. -/
def Obligations.StepRunsTheDecodedInstruction : Prop :=
  ∀ (s : State) (hi lo : Byte) (i : Instr), s.await = none → s.pc.toNat ≤ 0xFFE →
    s.mem.read s.pc.toNat = hi → s.mem.read (s.pc.toNat + 1) = lo → decodeWord (wordOfBytes hi lo) = .ok i →
    step s = exec i s ∧ ∀ t, exec i s = .next t → perform .step s = (.ok, t)

/-- Section 1, line 1, and spec/44_keypad_timers.md section 2: while a key wait is pending a step is Held and changes
nothing, which is also what running the waiting Fx0A again would do. That the step is Held, not a fault, is the spec's
decision D17 (log 7). -/
def Obligations.KeyWaitHoldsTheStep : Prop :=
  ∀ (s : State) (r : RegIdx), s.await = some r →
    step s = .next s ∧ perform .step s = (.held, s) ∧ exec (.ldVxK r) s = .next s

/-- R53: a fetch succeeds if and only if PC is at most 0xFFE, it gives the two bytes at PC as one big-endian word, and a
failed fetch makes the step end with AddressOutOfRange and no change. -/
def Obligations.FetchReadsTwoBytesUpToFFE : Prop :=
  ∀ s : State,
    (s.pc.toNat ≤ 0xFFE → ∃ w, s.fetch = .ok w ∧
      w.toNat = 256 * (s.mem.read s.pc.toNat).toNat + (s.mem.read (s.pc.toNat + 1)).toNat) ∧
    (0xFFF ≤ s.pc.toNat → s.fetch = .error .addressOutOfRange) ∧
    (0xFFF ≤ s.pc.toNat → s.await = none →
      step s = .fault .addressOutOfRange ∧ perform .step s = (.fault .addressOutOfRange, s))

/-- R177: a step whose fetched word is illegal raises InvalidOpcode, changes nothing and leaves PC on the word. -/
def Obligations.IllegalWordRaisesInvalidOpcode : Prop :=
  ∀ (s : State) (w : Word), s.await = none → s.fetch = .ok w → ¬ WellFormedWord w →
    step s = .fault .invalidOpcode ∧ perform .step s = (.fault .invalidOpcode, s)

/-- Section 1, the outcomes of STEP: a step ends in a next state or in one of four named faults, never in
ProgramTooLarge, and is never refused. Each outcome has its numeric code: a next state, Held included, 0,
AddressOutOfRange 1, StackOverflow 3, StackUnderflow 4, InvalidOpcode 5; the fault left over, ProgramTooLarge, has 2. The
codes are the spec's decision D22, Held its D17 (log 23, log 7). -/
def Obligations.StepEndsInOneOfItsOutcomes : Prop :=
  (∀ s : State,
    (∃ t, step s = .next t) ∧ outcomeCode (perform .step s).1 = some 0 ∨
    step s = .fault .addressOutOfRange ∧ outcomeCode (perform .step s).1 = some 1 ∨
    step s = .fault .stackOverflow ∧ outcomeCode (perform .step s).1 = some 3 ∨
    step s = .fault .stackUnderflow ∧ outcomeCode (perform .step s).1 = some 4 ∨
    step s = .fault .invalidOpcode ∧ outcomeCode (perform .step s).1 = some 5) ∧
  outcomeCode (.fault .programTooLarge) = some 2

/-- R171: whatever the operation, after the outcome Fault(F) the state is the one before it; so a faulted step faults in
the same way again. -/
def Obligations.FaultChangesNothing : Prop :=
  ∀ (op : Operation) (s : State) (f : Fault), (perform op s).1 = .fault f →
    (perform op s).2 = s ∧ perform op (perform op s).2 = perform op s

/-! ## Invariants -/

/-- spec/10_state.md sections 3, 4 and 12: the invariant holds of the state after power-on, and no wait is pending.
That the core has its reset values after POWER_ON, so that State.reset is the state then, and that AWAIT is None in them,
is the spec's decision D19 (log 16); the memory left is that of D13 and the default table (log 5, log 4). -/
def Obligations.ResetMeetsTheInvariant : Prop :=
  Invariant State.reset ∧ State.reset.await = none ∧ WaitAtItsInstruction State.reset

/-- spec/10_state.md sections 3 and 4 (the values PC and the stack entries can hold): every step keeps the memory in
canonical form, PC at most 0x10FE, stack entries at most 0x1000, and a waiting PC fetchable. -/
def Obligations.EveryStepKeepsTheInvariant : Prop := ∀ s t : State, Invariant s → step s = .next t → Invariant t

/-- The same for every list of operations, any interleaving of steps, ticks, key events, resets, loads and host accesses
(spec/70_reset_and_hazards.md section 4, spec/00_scope.md section 4). That POWER_ON may stand anywhere in the list is the
model's choice (log 25), that LOAD_PROGRAM and the host's accesses may the spec's decisions D24 and D25 (log 17). -/
def Obligations.EveryRunOfOperationsKeepsTheInvariant : Prop :=
  ∀ (ops : List Operation) (s : State), Invariant s → Invariant (performAll ops s)

/-- spec/44_keypad_timers.md section 2: a pending key wait keeps pointing at its own Fx0A under steps, ticks, key events
and resets (a host that rewrites memory at PC is not among them). That a step during the wait is Held is the spec's
decision D17 (log 7), how a key event ends the wait D18 (log 15), that RESET clears it D19 (log 16). -/
def Obligations.KeyWaitStaysAtItsInstruction : Prop :=
  ∀ s : State, WaitAtItsInstruction s →
    (∀ t, step s = .next t → WaitAtItsInstruction t) ∧ WaitAtItsInstruction (tick s) ∧
    (∀ k, WaitAtItsInstruction (keyDeliver k s)) ∧ WaitAtItsInstruction (resetCore s)

/-! ## Whole-machine rules -/

/-- spec/20_memory.md section 6: no step changes a byte of the glyph region. The guard's fault is the spec's decision D12
(log 6). -/
def Obligations.NoStepWritesTheGlyphRegion : Prop :=
  ∀ (s t : State) (a : Nat), step s = .next t → a < 0x050 → t.mem.read a = s.mem.read a

/-- spec/20_memory.md section 6: Fx33 and Fx55 are the only storing instructions. -/
def Obligations.OnlyFx33AndFx55WriteMemory : Prop :=
  ∀ (i : Instr) (s t : State), exec i s = .next t → (∀ x, i ≠ .ldBVx x) → (∀ x, i ≠ .ldMiVx x) →
    ∀ a, t.mem.read a = s.mem.read a

/-- spec/10_state.md section 1 and spec/00_scope.md section 3: VF is changed only by the six flag-writing instructions
and by those that name it as their destination. The closed world is the spec's decision D2 (log 11). -/
def Obligations.VfIsChangedOnlyByItsWriters : Prop :=
  ∀ (i : Instr) (s t : State), exec i s = .next t → ¬ MayWriteVf i → t.reg vf = s.reg vf

/-- spec/10_state.md sections 2 to 7: I, DT, ST, FB, the call stack and AWAIT are each changed by their own instructions
only. The closed world is the spec's decision D2 (log 11). -/
def Obligations.EachSpecialRegisterHasItsWriters : Prop :=
  ∀ (i : Instr) (s t : State), exec i s = .next t →
    (t.i ≠ s.i → (∃ nnn, i = .ldINnn nnn) ∨ (∃ x, i = .addIVx x) ∨ ∃ x, i = .ldFVx x) ∧
    (t.dt ≠ s.dt → ∃ x, i = .ldDtVx x) ∧
    (t.st ≠ s.st → ∃ x, i = .ldStVx x) ∧
    (t.fb ≠ s.fb → i = .cls ∨ ∃ x y n, i = .drwVxVyN x y n) ∧
    (t.sp ≠ s.sp ∨ t.stack ≠ s.stack → i = .ret ∨ ∃ nnn, i = .call nnn) ∧
    (t.await ≠ s.await → ∃ x, i = .ldVxK x)

/-- spec/10_state.md section 5: no instruction reads the sound timer, so two states that differ in it only have outcomes
that differ in it only; the same holds of a whole step. -/
def Obligations.SoundTimerIsNeverRead : Prop :=
  (∀ (i : Instr) (s : State) (b : Byte), OutcomesSameButSound (exec i s) (exec i (s.setSound b))) ∧
  ∀ (s : State) (b : Byte), OutcomesSameButSound (step s) (step (s.setSound b))

/-- spec/10_state.md section 3, alignment of PC: only 1nnn, 2nnn, Bnnn and 00EE can change the parity of PC. That nothing
checks it is the spec's decision D4 (log 12). -/
def Obligations.OnlyTransfersChangeTheParityOfPc : Prop :=
  ∀ (i : Instr) (s t : State), exec i s = .next t → ¬ Transfers i → t.pc.toNat % 2 = s.pc.toNat % 2

/-! ## Control transfer (spec/40_flow.md) -/

/-- The entry on 00EE: it faults on an empty stack; else it pops the top entry into PC, the slot keeps its contents, and VF
is unchanged. That SP is the depth, the slot's number and that the slot keeps its contents are the spec's decision D6
(log 8), VF its closed world, decision D2 (log 11). -/
def Obligations.ReturnPopsTheStackIntoPc : Prop :=
  ∀ s : State,
    (s.sp.val = 0 → exec .ret s = .fault .stackUnderflow) ∧
    (∀ j : Fin 16, s.sp.val = j.val + 1 → ∃ t, exec .ret s = .next t ∧ t.pc = s.stack[j.val] ∧ t.sp.val = j.val ∧
      t.stack = s.stack ∧ t.reg vf = s.reg vf)

/-- The entries on 1nnn and Bnnn: 1nnn sets PC to nnn and Bnnn to nnn + V0, a sum that is not reduced; VF and the stack are
unchanged, by the spec's closed world, decision D2 (log 11). -/
def Obligations.JumpsSetPcToTheirTargets : Prop :=
  ∀ (nnn : Addr12) (s : State),
    (∃ t, exec (.jp nnn) s = .next t ∧ t.pc.toNat = nnn.toNat ∧ t.sp = s.sp ∧ t.stack = s.stack ∧
      t.reg vf = s.reg vf) ∧
    (∃ t, exec (.jpV0Nnn nnn) s = .next t ∧ t.pc.toNat = nnn.toNat + (s.reg v0).toNat ∧ t.sp = s.sp ∧
      t.stack = s.stack ∧ t.reg vf = s.reg vf)

/-- Section on 2nnn: at depth 16 it faults; else the return address PC + 2 goes to the slot numbered by the old depth,
the depth grows by one, PC becomes nnn, and nothing else changes. That PC + 2 is what is pushed is the spec's decision
D5, the slot's number D6 (log 8); that nothing else changes is its closed world, decision D2 (log 11). -/
def Obligations.CallPushesTheReturnAddress : Prop :=
  ∀ (nnn : Addr12) (s : State),
    (s.sp.val = 16 → exec (.call nnn) s = .fault .stackOverflow) ∧
    (∀ j : Fin 16, s.sp.val = j.val → ∃ t, exec (.call nnn) s = .next t ∧ t.pc.toNat = nnn.toNat ∧
      t.sp.val = j.val + 1 ∧ t.stack[j.val] = s.pc + 2 ∧
      OnlyChanges (fun p => p = .pc ∨ p = .depth ∨ p = .slot j) s t)

/-- The entries on 3xkk and 4xkk: 3xkk skips if Vx equals kk, 4xkk if it differs; VF is unchanged, by the spec's closed
world, decision D2 (log 11). -/
def Obligations.SkipsOnAnImmediate : Prop :=
  ∀ (x : RegIdx) (kk : Byte) (s : State),
    (∃ t, exec (.seVxKk x kk) s = .next t ∧ (s.reg x = kk → t.pc = s.pc + 4) ∧ (s.reg x ≠ kk → t.pc = s.pc + 2) ∧
      t.reg vf = s.reg vf) ∧
    (∃ t, exec (.sneVxKk x kk) s = .next t ∧ (s.reg x ≠ kk → t.pc = s.pc + 4) ∧ (s.reg x = kk → t.pc = s.pc + 2) ∧
      t.reg vf = s.reg vf)

/-- The entries on 5xy0 and 9xy0: 5xy0 skips if Vx equals Vy, 9xy0 if it differs; VF is unchanged, by the spec's closed
world, decision D2 (log 11). -/
def Obligations.SkipsOnTwoRegisters : Prop :=
  ∀ (x y : RegIdx) (s : State),
    (∃ t, exec (.seVxVy x y) s = .next t ∧ (s.reg x = s.reg y → t.pc = s.pc + 4) ∧
      (s.reg x ≠ s.reg y → t.pc = s.pc + 2) ∧ t.reg vf = s.reg vf) ∧
    (∃ t, exec (.sneVxVy x y) s = .next t ∧ (s.reg x ≠ s.reg y → t.pc = s.pc + 4) ∧
      (s.reg x = s.reg y → t.pc = s.pc + 2) ∧ t.reg vf = s.reg vf)

/-- spec/95_test_vectors.md S3: 00EE right after 2nnn puts PC at the instruction after the call and the depth back; only
PC and the one stack slot are changed by the pair. That PC + 2 is what is pushed is the spec's decision D5, the slot's
number D6 (log 8); that nothing else changes is its closed world, decision D2 (log 11). -/
def Obligations.CallThenReturnComesBack : Prop :=
  ∀ (nnn : Addr12) (s : State) (j : Fin 16), s.sp.val = j.val →
    ∃ t u, exec (.call nnn) s = .next t ∧ exec .ret t = .next u ∧ u.pc = s.pc + 2 ∧ u.sp = s.sp ∧
      OnlyChanges (fun p => p = .pc ∨ p = .slot j) s u

/-- spec/10_state.md section 4 and spec/95_test_vectors.md S7: from depth d a run of calls, whatever their targets,
succeeds up to depth 16, and one call more ends it with StackOverflow. SP as the depth is the spec's decision D6
(log 8). -/
def Obligations.CallsSucceedUpToDepthSixteen : Prop :=
  ∀ (targets : List Addr12) (s : State),
    (s.sp.val + targets.length ≤ 16 →
      ∃ t, execAll (targets.map Instr.call) s = .next t ∧ t.sp.val = s.sp.val + targets.length) ∧
    (16 < s.sp.val + targets.length → execAll (targets.map Instr.call) s = .fault .stackOverflow)

/-! ## Register loads and the ALU (spec/41_alu.md) -/

/-- Section 2: 6xkk loads kk; 7xkk adds kk modulo 256; VF is written only where it is Vx itself. The source says "no flag"
of 7xkk; of 6xkk it is the spec's closed world, decision D2 (log 11). -/
def Obligations.ImmediateLoadAndAdd : Prop :=
  ∀ (x : RegIdx) (kk : Byte) (s : State),
    (∃ t, exec (.ldVxKk x kk) s = .next t ∧ t.reg x = kk ∧ t.pc = s.pc + 2 ∧ (x ≠ vf → t.reg vf = s.reg vf)) ∧
    (∃ t, exec (.addVxKk x kk) s = .next t ∧ (t.reg x).toNat = ((s.reg x).toNat + kk.toNat) % 256 ∧
      t.pc = s.pc + 2 ∧ (x ≠ vf → t.reg vf = s.reg vf))

/-- Section 3 on 8xy0 to 8xy3: 8xy0 assigns, 8xy1, 8xy2 and 8xy3 combine bit by bit; VF is neither written nor cleared,
unless it is Vx itself, by the spec's closed world, decision D2 (log 11). -/
def Obligations.AssignOrAndXor : Prop :=
  ∀ (x y : RegIdx) (s : State),
    (∃ t, exec (.ldVxVy x y) s = .next t ∧ t.reg x = s.reg y ∧ t.pc = s.pc + 2 ∧ (x ≠ vf → t.reg vf = s.reg vf)) ∧
    (∃ t, exec (.orVxVy x y) s = .next t ∧ t.pc = s.pc + 2 ∧ (x ≠ vf → t.reg vf = s.reg vf) ∧
      ∀ k, (t.reg x).getLsbD k = ((s.reg x).getLsbD k || (s.reg y).getLsbD k)) ∧
    (∃ t, exec (.andVxVy x y) s = .next t ∧ t.pc = s.pc + 2 ∧ (x ≠ vf → t.reg vf = s.reg vf) ∧
      ∀ k, (t.reg x).getLsbD k = ((s.reg x).getLsbD k && (s.reg y).getLsbD k)) ∧
    (∃ t, exec (.xorVxVy x y) s = .next t ∧ t.pc = s.pc + 2 ∧ (x ≠ vf → t.reg vf = s.reg vf) ∧
      ∀ k, (t.reg x).getLsbD k = ((s.reg x).getLsbD k != (s.reg y).getLsbD k))

/-- Section 3 on 8xy4: Vx gets the sum modulo 256 and VF the carry, for every x and y; with x = 15 VF holds the flag and
the sum is lost, which is the spec's decision D7 (log 9). The frame is its closed world, decision D2 (log 11). -/
def Obligations.AddSetsSumAndCarry : Prop :=
  ∀ (x y : RegIdx) (s : State), ∃ t, exec (.addVxVy x y) s = .next t ∧
    (x ≠ vf → (t.reg x).toNat = ((s.reg x).toNat + (s.reg y).toNat) % 256) ∧
    ((s.reg x).toNat + (s.reg y).toNat > 255 → t.reg vf = 0x01) ∧
    ((s.reg x).toNat + (s.reg y).toNat ≤ 255 → t.reg vf = 0x00) ∧
    t.pc = s.pc + 2 ∧ OnlyChanges (fun p => p = .pc ∨ p = .reg x ∨ p = .reg vf) s t

/-- Section 3 on 8xy5: Vx gets Vx - Vy modulo 256 and VF is 1 exactly when Vx >= Vy; with x = 15 VF holds the flag, the
spec's decision D7 (log 9). The frame is its closed world, decision D2 (log 11). -/
def Obligations.SubSetsDifferenceAndNoBorrow : Prop :=
  ∀ (x y : RegIdx) (s : State), ∃ t, exec (.subVxVy x y) s = .next t ∧
    (x ≠ vf → (t.reg x).toNat = ((s.reg x).toNat + 256 - (s.reg y).toNat) % 256) ∧
    ((s.reg y).toNat ≤ (s.reg x).toNat → t.reg vf = 0x01) ∧
    ((s.reg x).toNat < (s.reg y).toNat → t.reg vf = 0x00) ∧
    t.pc = s.pc + 2 ∧ OnlyChanges (fun p => p = .pc ∨ p = .reg x ∨ p = .reg vf) s t

/-- Section 3 on 8xy6: Vx gets floor(Vx / 2) and VF the bit shifted out, whatever y names; with x = 15 VF holds the flag,
the spec's decision D7 (log 9). The frame is its closed world, decision D2 (log 11). -/
def Obligations.ShiftRightHalvesAndEvicts : Prop :=
  ∀ (x y : RegIdx) (s : State), ∃ t, exec (.shrVx x y) s = .next t ∧
    (x ≠ vf → (t.reg x).toNat = (s.reg x).toNat / 2) ∧ (t.reg vf).toNat = (s.reg x).toNat % 2 ∧
    t.pc = s.pc + 2 ∧ OnlyChanges (fun p => p = .pc ∨ p = .reg x ∨ p = .reg vf) s t

/-- Section 3 on 8xy7: Vx gets Vy - Vx modulo 256 and VF is 1 exactly when Vy >= Vx; with x = 15 VF holds the flag, the
spec's decision D7 (log 9). The frame is its closed world, decision D2 (log 11). -/
def Obligations.SubnSetsReverseDifference : Prop :=
  ∀ (x y : RegIdx) (s : State), ∃ t, exec (.subnVxVy x y) s = .next t ∧
    (x ≠ vf → (t.reg x).toNat = ((s.reg y).toNat + 256 - (s.reg x).toNat) % 256) ∧
    ((s.reg x).toNat ≤ (s.reg y).toNat → t.reg vf = 0x01) ∧
    ((s.reg y).toNat < (s.reg x).toNat → t.reg vf = 0x00) ∧
    t.pc = s.pc + 2 ∧ OnlyChanges (fun p => p = .pc ∨ p = .reg x ∨ p = .reg vf) s t

/-- Section 3 on 8xyE: Vx gets 2 * Vx modulo 256 and VF the bit shifted out, whatever y names; with x = 15 VF holds the
flag, the spec's decision D7 (log 9). The frame is its closed world, decision D2 (log 11). -/
def Obligations.ShiftLeftDoublesAndEvicts : Prop :=
  ∀ (x y : RegIdx) (s : State), ∃ t, exec (.shlVx x y) s = .next t ∧
    (x ≠ vf → (t.reg x).toNat = 2 * (s.reg x).toNat % 256) ∧ (t.reg vf).toNat = (s.reg x).toNat / 128 ∧
    t.pc = s.pc + 2 ∧ OnlyChanges (fun p => p = .pc ∨ p = .reg x ∨ p = .reg vf) s t

/-- Section 4 on Cxkk: Vx gets the draw AND kk, so no bit outside kk is set and Vx is at most kk, for every draw; the next
execution uses the next draw, and nothing else changes. That RAND is a free input is the spec's decision D16 (log 1), the
frame its closed world, decision D2 (log 11); the count of draws is the model's own (log 3). -/
def Obligations.RandomByteIsMasked : Prop :=
  ∀ (x : RegIdx) (kk : Byte) (s : State), ∃ t, exec (.rndVxKk x kk) s = .next t ∧
    t.reg x = (Config.randByte s.randDraws &&& kk) ∧ t.reg x &&& ~~~kk = 0x00 ∧ (t.reg x).toNat ≤ kk.toNat ∧
    t.randDraws = s.randDraws + 1 ∧ t.pc = s.pc + 2 ∧
    OnlyChanges (fun p => p = .pc ∨ p = .reg x ∨ p = .randDraws) s t

/-! ## Index register, loads and stores (spec/42_index_memory.md) -/

/-- The entry on Annn: it sets I to nnn; VF is unchanged, by the spec's closed world, decision D2 (log 11). -/
def Obligations.LoadIndexSetsI : Prop :=
  ∀ (nnn : Addr12) (s : State), ∃ t, exec (.ldINnn nnn) s = .next t ∧ t.i.toNat = nnn.toNat ∧ t.pc = s.pc + 2 ∧
    t.reg vf = s.reg vf

/-- The entry on Fx1E: I gets the low 16 bits of I + Vx, VF is not written, and no sum faults. The wrap at 16 bits is the
spec's decision D8 (log 13), the frame its closed world, decision D2 (log 11). -/
def Obligations.AddToIndexWrapsAtSixteenBits : Prop :=
  ∀ (x : RegIdx) (s : State), ∃ t, exec (.addIVx x) s = .next t ∧
    t.i.toNat = (s.i.toNat + (s.reg x).toNat) % 65536 ∧ t.pc = s.pc + 2 ∧
    OnlyChanges (fun p => p = .pc ∨ p = .index) s t

/-- The entry on Fx29: I gets 5 times the digit, so it points into the glyph region. Using the low nibble of Vx for the
digit is the spec's decision D9 (log 14), the order of the glyphs D14 (log 4), the frame D2 (log 11). -/
def Obligations.GlyphAddressIsFiveTimesTheDigit : Prop :=
  ∀ (x : RegIdx) (s : State), ∃ t, exec (.ldFVx x) s = .next t ∧
    t.i.toNat = 5 * ((s.reg x).toNat % 16) ∧ t.i.toNat ≤ 0x04B ∧ t.pc = s.pc + 2 ∧
    OnlyChanges (fun p => p = .pc ∨ p = .index) s t

/-- The entry on Fx33: from 0x050 to 0xFFD the three decimal digits of Vx are stored at I, I + 1, I + 2 and nothing else
changes; at any other I it faults. The guard below 0x050 is the spec's decision D12 (log 6), the frame D2 and D11
(log 11). -/
def Obligations.BcdStoresThreeDigits : Prop :=
  ∀ (x : RegIdx) (s : State),
    (0x050 ≤ s.base → s.base + 2 < 4096 → ∃ t, exec (.ldBVx x) s = .next t ∧
      (t.mem.read s.base).toNat = (s.reg x).toNat / 100 ∧
      (t.mem.read (s.base + 1)).toNat = (s.reg x).toNat / 10 % 10 ∧
      (t.mem.read (s.base + 2)).toNat = (s.reg x).toNat % 10 ∧ t.pc = s.pc + 2 ∧
      OnlyChanges (fun p => p = .pc ∨ ∃ a, p = .byte a ∧ s.base ≤ a ∧ a < s.base + 3) s t) ∧
    (s.base ≤ 0x04F ∨ 4096 ≤ s.base + 2 → exec (.ldBVx x) s = .fault .addressOutOfRange)

/-- The entry on Fx55: V0 to Vx are stored at I, I + 1 and so on, x + 1 bytes, and nothing else changes; if the range
passes the end of memory or starts in the glyph region it faults. The guard is the spec's decision D12 (log 6), the frame
D2 and D11 (log 11). -/
def Obligations.BlockStoreWritesV0ToVx : Prop :=
  ∀ (x : RegIdx) (s : State),
    (0x050 ≤ s.base → s.base + x.val < 4096 → ∃ t, exec (.ldMiVx x) s = .next t ∧
      (∀ r : RegIdx, r.val ≤ x.val → t.mem.read (s.base + r.val) = s.reg r) ∧ t.pc = s.pc + 2 ∧
      OnlyChanges (fun p => p = .pc ∨ ∃ a, p = .byte a ∧ s.base ≤ a ∧ a < s.base + (x.val + 1)) s t) ∧
    (s.base ≤ 0x04F ∨ 4096 ≤ s.base + x.val → exec (.ldMiVx x) s = .fault .addressOutOfRange)

/-- The entry on Fx65: it loads V0 to Vx from I, I + 1 and so on, the glyph region included; I and memory are unchanged,
VF is too unless it is in the range; if the range passes the end of memory it faults. That I is unchanged is the spec's
decision D11, VF and memory its closed world, decision D2 (log 11). -/
def Obligations.BlockLoadReadsV0ToVx : Prop :=
  ∀ (x : RegIdx) (s : State),
    (s.base + x.val < 4096 → ∃ t, exec (.ldVxMi x) s = .next t ∧
      (∀ r : RegIdx, r.val ≤ x.val → t.reg r = s.mem.read (s.base + r.val)) ∧
      (x ≠ vf → t.reg vf = s.reg vf) ∧ t.i = s.i ∧ (∀ a, t.mem.read a = s.mem.read a) ∧
      t.pc = s.pc + 2) ∧
    (4096 ≤ s.base + x.val → exec (.ldVxMi x) s = .fault .addressOutOfRange)

/-- The entries on Fx55 and Fx65 together: a block stored and loaded again from the same I gives back the same registers,
whatever the registers held in between. -/
def Obligations.BlockStoreThenLoadRestores : Prop :=
  ∀ (x : RegIdx) (s t u : State), exec (.ldMiVx x) s = .next t → u.mem = t.mem → u.i = s.i →
    ∃ w, exec (.ldVxMi x) u = .next w ∧ ∀ r : RegIdx, r.val ≤ x.val → w.reg r = s.reg r

/-- R50, R51: below 4096 MemRead gives the cell and changes nothing, and MemWrite changes that cell and no other; from
4096 on both fail with AddressOutOfRange. -/
def Obligations.MemoryReadAndWritePrimitives : Prop :=
  ∀ (s : State) (a : Nat) (b : Byte),
    (a < 4096 → s.memRead a = .ok (s.mem.read a) ∧ (perform (.memRead a) s).2 = s ∧
      ∃ t, s.memWrite a b = .ok t ∧ t.memRead a = .ok b ∧ (∀ c, c ≠ a → t.memRead c = s.memRead c)) ∧
    (4096 ≤ a → s.memRead a = .error .addressOutOfRange ∧ s.memWrite a b = .error .addressOutOfRange)

/-! ## Display (spec/43_display.md) -/

/-- The entry on 00E0: it turns every pixel off; VF is not written and no other state changes, by the spec's closed world,
decision D2 (log 11). -/
def Obligations.ClearTurnsEveryPixelOff : Prop :=
  ∀ s : State, ∃ t, exec .cls s = .next t ∧ (∀ row col : Nat, t.fb.pixel row col = false) ∧ t.reg vf = s.reg vf ∧
    t.pc = s.pc + 2 ∧ OnlyChanges (fun p => p = .pc ∨ ∃ row col, p = .pixel row col) s t

/-- The entry on Dxyn and its properties (a) and (c): where the sprite lies in memory (or n is 0), exactly the pixels
under a 1 bit are flipped, with wraparound, VF is 1 exactly when one of them was lit, and nothing else changes. The bit
order within a row byte is the spec's decision D15 from general knowledge (log 10), the frame D2 and D11 (log 11). -/
def Obligations.DrawFlipsExactlyTheCoveredPixels : Prop :=
  ∀ (x y : RegIdx) (n : Nibble) (s : State), n.toNat = 0 ∨ s.base + n.toNat ≤ 4096 →
    ∃ t, exec (.drwVxVyN x y n) s = .next t ∧
      (∀ (row : Fin 32) (col : Fin 64), SpriteCovers x y n s row col →
        t.fb.pixel row.val col.val = !s.fb.pixel row.val col.val) ∧
      (∀ (row : Fin 32) (col : Fin 64), ¬ SpriteCovers x y n s row col →
        t.fb.pixel row.val col.val = s.fb.pixel row.val col.val) ∧
      ((∃ row col, SpriteCovers x y n s row col ∧ s.fb.pixel row.val col.val = true) → t.reg vf = 0x01) ∧
      ((¬ ∃ row col, SpriteCovers x y n s row col ∧ s.fb.pixel row.val col.val = true) → t.reg vf = 0x00) ∧
      t.pc = s.pc + 2 ∧ OnlyChanges (fun p => p = .pc ∨ p = .reg vf ∨ ∃ row col, p = .pixel row col) s t

/-- The entry on Dxyn and its property (b): it faults exactly when it has a row past the end of memory; with n = 0 it
reads nothing, so it cannot fault whatever I holds, changes no pixel, and sets VF to 0 (the spec's decision D21, log 10). -/
def Obligations.DrawFaultsOnlyPastTheEnd : Prop :=
  ∀ (x y : RegIdx) (n : Nibble) (s : State),
    (exec (.drwVxVyN x y n) s = .fault .addressOutOfRange ↔ 1 ≤ n.toNat ∧ 4096 < s.base + n.toNat) ∧
    (n = 0#4 → ∃ t, exec (.drwVxVyN x y n) s = .next t ∧ t.fb = s.fb ∧ t.reg vf = 0x00 ∧ t.pc = s.pc + 2)

/-- Property (d) of Dxyn: the same sprite drawn twice at the same place restores the display. The place is the same when
neither coordinate is VF, which the first draw writes; the instruction is run a second time on the state the first one
left, in which I is as before by the spec's decisions D2 and D11 (log 11). The clause on the second draw's VF is the
model's reading of the pseudocode in the entry on Dxyn, not the words of property (d) (DEDUCED, log 21): VF is 1 exactly
when a pixel under a 1 bit was unlit before the first draw. Property (d) says VF is 1 whenever the sprite has a 1 bit,
which agrees where some such pixel was unlit. Which pixels lie under a 1 bit rests on the bit order, the spec's decision
D15 from general knowledge (PRESUMED, log 10), and the case n = 0 on its decision D21 (log 10). A coordinate in VF is not
stated here; the statement on one draw covers it. -/
def Obligations.DrawingTwiceRestoresTheDisplay : Prop :=
  ∀ (x y : RegIdx) (n : Nibble) (s : State), x ≠ vf → y ≠ vf → n.toNat = 0 ∨ s.base + n.toNat ≤ 4096 →
    ∃ t u, exec (.drwVxVyN x y n) s = .next t ∧ exec (.drwVxVyN x y n) t = .next u ∧
      (∀ row col : Nat, u.fb.pixel row col = s.fb.pixel row col) ∧
      ((∃ row col, SpriteCovers x y n s row col ∧ s.fb.pixel row.val col.val = false) → u.reg vf = 0x01) ∧
      ((¬ ∃ row col, SpriteCovers x y n s row col ∧ s.fb.pixel row.val col.val = false) → u.reg vf = 0x00)

/-! ## Keypad and timers (spec/44_keypad_timers.md, spec/60_exceptions.md section 6) -/

/-- Section 1 on Ex9E and ExA1: each samples the key levels once and skips on the level of the key named by Vx; on the
same levels exactly one of the two skips. KEYS as a free input and the low nibble of Vx are the spec's decision D10
(log 2, log 14), the frame D2 (log 11). -/
def Obligations.KeySkipsTestTheSampledLevel : Prop :=
  ∀ (x : RegIdx) (s : State), ∃ t u, exec (.skpVx x) s = .next t ∧ exec (.sknpVx x) s = .next u ∧
    t.pc = (if (Config.keyLevels s.keySamples).getLsbD ((s.reg x).toNat % 16) then s.pc + 4 else s.pc + 2) ∧
    u.pc = (if (Config.keyLevels s.keySamples).getLsbD ((s.reg x).toNat % 16) then s.pc + 2 else s.pc + 4) ∧
    t.keySamples = s.keySamples + 1 ∧ u.keySamples = s.keySamples + 1 ∧
    OnlyChanges (fun p => p = .pc ∨ p = .keySamples) s t ∧ OnlyChanges (fun p => p = .pc ∨ p = .keySamples) s u

/-- Section 2 on Fx0A: it enters the wait for Vx and changes nothing else, PC included; the next step is then Held (the
spec's decision D17, log 7; the frame D2, log 11). -/
def Obligations.KeyWaitIsEntered : Prop :=
  ∀ (x : RegIdx) (s : State), ∃ t, exec (.ldVxK x) s = .next t ∧ t.await = some x ∧
    OnlyChanges (fun p => p = .await) s t ∧ perform .step t = (.held, t)

/-- Section 3 on the timers: Fx07 copies DT to Vx and keeps DT; Fx15 and Fx18 copy Vx to DT and to ST; VF is unchanged
unless it is the Vx of Fx07, by the spec's closed world, decision D2 (log 11). -/
def Obligations.TimerTransfersCopyAByte : Prop :=
  ∀ (x : RegIdx) (s : State),
    (∃ t, exec (.ldVxDt x) s = .next t ∧ t.reg x = s.dt ∧ t.dt = s.dt ∧ t.pc = s.pc + 2 ∧
      (x ≠ vf → t.reg vf = s.reg vf)) ∧
    (∃ t, exec (.ldDtVx x) s = .next t ∧ t.dt = s.reg x ∧ t.pc = s.pc + 2 ∧ t.reg vf = s.reg vf) ∧
    (∃ t, exec (.ldStVx x) s = .next t ∧ t.st = s.reg x ∧ t.pc = s.pc + 2 ∧ t.reg vf = s.reg vf)

/-- Section 2 on KEY_DELIVER: it fills the waiting register with the key number, advances PC past the Fx0A and ends the
wait; with no wait pending it changes nothing. That it is then ignored and not queued is the spec's decision D18
(log 15), the frame D2 (log 11). -/
def Obligations.KeyDeliveryEndsTheWait : Prop :=
  ∀ (k : Nibble) (s : State),
    (s.await = none → perform (.keyDeliver k) s = (.ok, s)) ∧
    (∀ r, s.await = some r → ∃ t, perform (.keyDeliver k) s = (.ok, t) ∧ (t.reg r).toNat = k.toNat ∧
      t.pc = s.pc + 2 ∧ t.await = none ∧ OnlyChanges (fun p => p = .reg r ∨ p = .pc ∨ p = .await) s t)

/-- R185: a tick takes one from each timer that is not 0, so n ticks take n, never going below 0; nothing else changes. -/
def Obligations.TicksCountBothTimersDown : Prop :=
  ∀ (n : Nat) (s : State),
    let t := performAll (List.replicate n .tick) s
    t.dt.toNat = s.dt.toNat - n ∧ t.st.toNat = s.st.toNat - n ∧
      OnlyChanges (fun p => p = .delay ∨ p = .sound) s t ∧ (perform .tick s).1 = .ok

/-! ## Reset, load, end of a run (spec/70_reset_and_hazards.md, spec/20_memory.md section 7) -/

/-- Section 1: RESET gives every register its value and keeps memory, whatever the state before; POWER_ON gives the same
core and memory the glyph table it is built with and zeros above. That RESET clears AWAIT and keeps memory and that
POWER_ON leaves the core reset are the spec's decision D19 (log 16), the zeros D13 (log 5); POWER_ON from any state, a
repeated one included, is the model's choice (log 25). -/
def Obligations.ResetAndPowerOnValues : Prop :=
  ∀ (rom : Vector Byte 80) (s : State),
    (∀ r, (resetCore s).reg r = 0x00) ∧ (resetCore s).i = 0x0000 ∧ (resetCore s).pc = 0x0200 ∧
    (resetCore s).sp.val = 0 ∧ (∀ j : Fin 16, (resetCore s).stack[j.val] = 0x0000) ∧ (resetCore s).dt = 0x00 ∧
    (resetCore s).st = 0x00 ∧ (∀ row col, (resetCore s).fb.pixel row col = false) ∧ (resetCore s).await = none ∧
    (∀ a, (resetCore s).mem.read a = s.mem.read a) ∧
    resetCore (powerOn rom s) = powerOn rom s ∧
    (∀ a : Fin 80, (powerOn rom s).mem.read a.val = rom[a.val]) ∧
    (∀ a, 0x050 ≤ a → (powerOn rom s).mem.read a = 0x00)

/-- spec/20_memory.md section 7: up to 0xE00 bytes are written from 0x200 up and nothing else changes; more fail with
ProgramTooLarge and change nothing. That any state may be loaded into, and that a load changes no other state, is the
spec's decision D24 (log 17). -/
def Obligations.LoadProgramWritesOrFails : Prop :=
  ∀ (bytes : List Byte) (s : State),
    (bytes.length ≤ 0xE00 → ∃ t, perform (.loadProgram bytes) s = (.ok, t) ∧
      (∀ (k : Nat) (h : k < bytes.length), t.mem.read (0x200 + k) = bytes[k]) ∧
      OnlyChanges (fun p => ∃ a, p = .byte a ∧ 0x200 ≤ a ∧ a < 0x200 + bytes.length) s t) ∧
    (0xE00 < bytes.length → perform (.loadProgram bytes) s = (.fault .programTooLarge, s))

/-- Sections 1 and 2: after POWER_ON, LOAD_PROGRAM and RESET, the first step fetches the program's first two bytes as one
word, whatever the machine did before. (RESET keeping memory and clearing AWAIT is the spec's decision D19,
log 16; POWER_ON after other operations is the model's choice, log 25.) -/
def Obligations.FirstFetchIsTheProgramsFirstWord : Prop :=
  ∀ (rom : Vector Byte 80) (b0 b1 : Byte) (rest : List Byte) (s : State), rest.length + 2 ≤ 0xE00 →
    let t := performAll [.powerOn rom, .loadProgram (b0 :: b1 :: rest), .reset] s
    t.await = none ∧ t.fetch = .ok (wordOfBytes b0 b1)

/-- Section 5 (b): once PC is at a 1nnn that jumps to itself, a step leaves all state unchanged. Taking that as the end
of a run is the spec's convention D26; the hardware keeps stepping. -/
def Obligations.JumpToItselfIsAFixedPoint : Prop :=
  ∀ (nnn : Addr12) (s : State), s.await = none → s.pc.toNat = nnn.toNat → s.fetch = .ok (encode (.jp nnn)) →
    step s = .next s

/-! ## Frames of the instructions whose results are stated above without one (spec/00_scope.md section 3) -/

/-- The frame of the control transfers: 1nnn, Bnnn, 3xkk, 4xkk, 5xy0 and 9xy0 change PC only, 00EE changes PC and SP only.
The closed world is the spec's decision D2 (log 11). -/
def Obligations.FrameOfControlTransfers : Prop :=
  ∀ (x y : RegIdx) (kk : Byte) (nnn : Addr12) (s t : State),
    (exec (.jp nnn) s = .next t → OnlyChanges (fun p => p = .pc) s t) ∧
    (exec (.jpV0Nnn nnn) s = .next t → OnlyChanges (fun p => p = .pc) s t) ∧
    (exec (.seVxKk x kk) s = .next t → OnlyChanges (fun p => p = .pc) s t) ∧
    (exec (.sneVxKk x kk) s = .next t → OnlyChanges (fun p => p = .pc) s t) ∧
    (exec (.seVxVy x y) s = .next t → OnlyChanges (fun p => p = .pc) s t) ∧
    (exec (.sneVxVy x y) s = .next t → OnlyChanges (fun p => p = .pc) s t) ∧
    (exec .ret s = .next t → OnlyChanges (fun p => p = .pc ∨ p = .depth) s t)

/-- The frame of the register writers, from their entries: 6xkk, 7xkk, 8xy0, 8xy1, 8xy2, 8xy3 and Fx07 change PC and Vx
only, Fx65 changes PC and V0 to Vx only. The closed world is the spec's decision D2, I after Fx65 its D11 (log 11). -/
def Obligations.FrameOfRegisterWriters : Prop :=
  ∀ (x y : RegIdx) (kk : Byte) (s t : State),
    (exec (.ldVxKk x kk) s = .next t → OnlyChanges (fun p => p = .pc ∨ p = .reg x) s t) ∧
    (exec (.addVxKk x kk) s = .next t → OnlyChanges (fun p => p = .pc ∨ p = .reg x) s t) ∧
    (exec (.ldVxVy x y) s = .next t → OnlyChanges (fun p => p = .pc ∨ p = .reg x) s t) ∧
    (exec (.orVxVy x y) s = .next t → OnlyChanges (fun p => p = .pc ∨ p = .reg x) s t) ∧
    (exec (.andVxVy x y) s = .next t → OnlyChanges (fun p => p = .pc ∨ p = .reg x) s t) ∧
    (exec (.xorVxVy x y) s = .next t → OnlyChanges (fun p => p = .pc ∨ p = .reg x) s t) ∧
    (exec (.ldVxDt x) s = .next t → OnlyChanges (fun p => p = .pc ∨ p = .reg x) s t) ∧
    (exec (.ldVxMi x) s = .next t →
      OnlyChanges (fun p => p = .pc ∨ ∃ r : RegIdx, p = .reg r ∧ r.val ≤ x.val) s t)

/-- The frame of Annn, Fx15 and Fx18: each changes PC and its one destination only. The closed world is the spec's
decision D2 (log 11). -/
def Obligations.FrameOfIndexAndTimerWriters : Prop :=
  ∀ (x : RegIdx) (nnn : Addr12) (s t : State),
    (exec (.ldINnn nnn) s = .next t → OnlyChanges (fun p => p = .pc ∨ p = .index) s t) ∧
    (exec (.ldDtVx x) s = .next t → OnlyChanges (fun p => p = .pc ∨ p = .delay) s t) ∧
    (exec (.ldStVx x) s = .next t → OnlyChanges (fun p => p = .pc ∨ p = .sound) s t)
end

