-- ==== Sys2Proof/Laws/Decode.lean ====
section
/-! SUPPORT. The fields and formats of an instruction word as numbers (spec/30_encoding.md R81, R82): each format gives
back what it was made of, and a word is made of its fields. -/

namespace Sys2Proof

/-! ## The numbers of the fields (R81) -/

theorem toNat_nib1 (w : Word) : (nib1 w).toNat = w.toNat / 0x1000 := by
  have := w.isLt
  simp [nib1, Nat.shiftRight_eq_div_pow]
  omega

theorem toNat_nib2 (w : Word) : (nib2 w).toNat = w.toNat / 0x100 % 0x10 := by
  simp [nib2, Nat.shiftRight_eq_div_pow]

theorem toNat_nib3 (w : Word) : (nib3 w).toNat = w.toNat / 0x10 % 0x10 := by
  simp [nib3, Nat.shiftRight_eq_div_pow]

theorem toNat_nib4 (w : Word) : (nib4 w).toNat = w.toNat % 0x10 := by
  simp [nib4]

theorem val_fieldX (w : Word) : (fieldX w).val = w.toNat / 0x100 % 0x10 := toNat_nib2 w

theorem val_fieldY (w : Word) : (fieldY w).val = w.toNat / 0x10 % 0x10 := toNat_nib3 w

theorem toNat_fieldKk (w : Word) : (fieldKk w).toNat = w.toNat % 0x100 := by
  simp [fieldKk]

theorem toNat_fieldNnn (w : Word) : (fieldNnn w).toNat = w.toNat % 0x1000 := by
  simp [fieldNnn]

/-! ## The numbers of the formats (R82) -/

/-- The number of a concatenation. -/
theorem toNat_append_eq {m n : Nat} (a : BitVec m) (b : BitVec n) : (a ++ b).toNat = a.toNat * 2 ^ n + b.toNat := by
  rw [BitVec.toNat_append, ← Nat.shiftLeft_add_eq_or_of_lt b.isLt, Nat.shiftLeft_eq]

theorem toNat_formatA (n : Nibble) (a : Addr12) : (formatA n a).toNat = n.toNat * 0x1000 + a.toNat :=
  toNat_append_eq n a

theorem toNat_formatXK (n : Nibble) (x : RegIdx) (kk : Byte) :
    (formatXK n x kk).toNat = n.toNat * 0x1000 + x.val * 0x100 + kk.toNat := by
  have h : (formatXK n x kk).toNat = (n ++ BitVec.ofFin (w := 4) x).toNat * 2 ^ 8 + kk.toNat := toNat_append_eq _ _
  rw [h, toNat_append_eq]
  simp only [BitVec.toNat_ofFin]
  omega

theorem toNat_formatXYN (n : Nibble) (x y : RegIdx) (k : Nibble) :
    (formatXYN n x y k).toNat = n.toNat * 0x1000 + x.val * 0x100 + y.val * 0x10 + k.toNat := by
  have h : (formatXYN n x y k).toNat =
      (n ++ BitVec.ofFin (w := 4) x ++ BitVec.ofFin (w := 4) y).toNat * 2 ^ 4 + k.toNat := toNat_append_eq _ _
  rw [h, toNat_append_eq, toNat_append_eq]
  simp only [BitVec.toNat_ofFin]
  omega

/-- The number of two bytes, high byte first (R52). -/
theorem toNat_wordOfBytes (hi lo : Byte) : (wordOfBytes hi lo).toNat = hi.toNat * 0x100 + lo.toNat :=
  toNat_append_eq hi lo

/-! ## A format gives back its parts -/

@[simp] theorem nib1_formatA (n : Nibble) (a : Addr12) : nib1 (formatA n a) = n := by
  apply BitVec.eq_of_toNat_eq
  rw [toNat_nib1, toNat_formatA]
  omega

@[simp] theorem fieldNnn_formatA (n : Nibble) (a : Addr12) : fieldNnn (formatA n a) = a := by
  apply BitVec.eq_of_toNat_eq
  rw [toNat_fieldNnn, toNat_formatA]
  omega

@[simp] theorem nib1_formatXK (n : Nibble) (x : RegIdx) (kk : Byte) : nib1 (formatXK n x kk) = n := by
  apply BitVec.eq_of_toNat_eq
  rw [toNat_nib1, toNat_formatXK]
  omega

@[simp] theorem fieldX_formatXK (n : Nibble) (x : RegIdx) (kk : Byte) : fieldX (formatXK n x kk) = x := by
  apply Fin.ext
  rw [val_fieldX, toNat_formatXK]
  omega

@[simp] theorem fieldKk_formatXK (n : Nibble) (x : RegIdx) (kk : Byte) : fieldKk (formatXK n x kk) = kk := by
  apply BitVec.eq_of_toNat_eq
  rw [toNat_fieldKk, toNat_formatXK]
  omega

@[simp] theorem nib1_formatXYN (n : Nibble) (x y : RegIdx) (k : Nibble) : nib1 (formatXYN n x y k) = n := by
  apply BitVec.eq_of_toNat_eq
  rw [toNat_nib1, toNat_formatXYN]
  omega

@[simp] theorem fieldX_formatXYN (n : Nibble) (x y : RegIdx) (k : Nibble) : fieldX (formatXYN n x y k) = x := by
  apply Fin.ext
  rw [val_fieldX, toNat_formatXYN]
  omega

@[simp] theorem fieldY_formatXYN (n : Nibble) (x y : RegIdx) (k : Nibble) : fieldY (formatXYN n x y k) = y := by
  apply Fin.ext
  rw [val_fieldY, toNat_formatXYN]
  omega

@[simp] theorem nib4_formatXYN (n : Nibble) (x y : RegIdx) (k : Nibble) : nib4 (formatXYN n x y k) = k := by
  apply BitVec.eq_of_toNat_eq
  rw [toNat_nib4, toNat_formatXYN]
  omega

/-! ## A word is made of its fields -/

theorem formatA_fields (w : Word) : formatA (nib1 w) (fieldNnn w) = w := by
  apply BitVec.eq_of_toNat_eq
  rw [toNat_formatA, toNat_nib1, toNat_fieldNnn]
  omega

theorem formatXK_fields (w : Word) : formatXK (nib1 w) (fieldX w) (fieldKk w) = w := by
  apply BitVec.eq_of_toNat_eq
  rw [toNat_formatXK, toNat_nib1, val_fieldX, toNat_fieldKk]
  omega

theorem formatXYN_fields (w : Word) : formatXYN (nib1 w) (fieldX w) (fieldY w) (nib4 w) = w := by
  apply BitVec.eq_of_toNat_eq
  rw [toNat_formatXYN, toNat_nib1, val_fieldX, val_fieldY, toNat_nib4]
  omega

/-- The two bytes of a word, laid out and read back (R52). -/
theorem wordOfBytes_of_word (w : Word) : wordOfBytes (w.extractLsb' 8 8) (w.extractLsb' 0 8) = w := by
  apply BitVec.eq_of_toNat_eq
  have := w.isLt
  rw [toNat_wordOfBytes]
  simp [Nat.shiftRight_eq_div_pow]
  omega

/-- Decoding the two bytes of a word is decoding the word. -/
theorem decodeBytes_bytesOfWord (w : Word) :
    decodeBytes (bytesOfWord w) =
      match decodeWord w with
      | .ok i => .ok (i, [])
      | .error c => .error (.illegal c) := by
  cases h : decodeWord w <;> simp [bytesOfWord, decodeBytes, wordOfBytes_of_word, h]

/-- The table's numbering reads what the decoder reads. -/
theorem decodeTableWord_eq_some {nbits w : Nat} {i : Instr} :
    decodeTableWord nbits w = some i ↔ decodeWord (tableWord nbits w) = .ok i := by
  unfold decodeTableWord
  rw [decodeBytes_bytesOfWord]
  cases decodeWord (tableWord nbits w) <;> simp

end Sys2Proof
end

