-- ==== Sys2Proof/Laws/State.lean ====
section
/-! SUPPORT. One lemma per field per update of the state, true by rfl, so that no later proof unfolds a record update. -/

namespace Sys2Proof.Machine

variable (s : State)

@[simp] theorem State.setReg_v (r : RegIdx) (b : Byte) : (s.setReg r b).v = s.v.set r.val b := rfl
@[simp] theorem State.setReg_i (r : RegIdx) (b : Byte) : (s.setReg r b).i = s.i := rfl
@[simp] theorem State.setReg_pc (r : RegIdx) (b : Byte) : (s.setReg r b).pc = s.pc := rfl
@[simp] theorem State.setReg_sp (r : RegIdx) (b : Byte) : (s.setReg r b).sp = s.sp := rfl
@[simp] theorem State.setReg_stack (r : RegIdx) (b : Byte) : (s.setReg r b).stack = s.stack := rfl
@[simp] theorem State.setReg_dt (r : RegIdx) (b : Byte) : (s.setReg r b).dt = s.dt := rfl
@[simp] theorem State.setReg_st (r : RegIdx) (b : Byte) : (s.setReg r b).st = s.st := rfl
@[simp] theorem State.setReg_fb (r : RegIdx) (b : Byte) : (s.setReg r b).fb = s.fb := rfl
@[simp] theorem State.setReg_await (r : RegIdx) (b : Byte) : (s.setReg r b).await = s.await := rfl
@[simp] theorem State.setReg_mem (r : RegIdx) (b : Byte) : (s.setReg r b).mem = s.mem := rfl
@[simp] theorem State.setReg_keySamples (r : RegIdx) (b : Byte) : (s.setReg r b).keySamples = s.keySamples := rfl
@[simp] theorem State.setReg_randDraws (r : RegIdx) (b : Byte) : (s.setReg r b).randDraws = s.randDraws := rfl

@[simp] theorem State.setRegs_v (w : Vector Byte 16) : (s.setRegs w).v = w := rfl
@[simp] theorem State.setRegs_i (w : Vector Byte 16) : (s.setRegs w).i = s.i := rfl
@[simp] theorem State.setRegs_pc (w : Vector Byte 16) : (s.setRegs w).pc = s.pc := rfl
@[simp] theorem State.setRegs_sp (w : Vector Byte 16) : (s.setRegs w).sp = s.sp := rfl
@[simp] theorem State.setRegs_stack (w : Vector Byte 16) : (s.setRegs w).stack = s.stack := rfl
@[simp] theorem State.setRegs_dt (w : Vector Byte 16) : (s.setRegs w).dt = s.dt := rfl
@[simp] theorem State.setRegs_st (w : Vector Byte 16) : (s.setRegs w).st = s.st := rfl
@[simp] theorem State.setRegs_fb (w : Vector Byte 16) : (s.setRegs w).fb = s.fb := rfl
@[simp] theorem State.setRegs_await (w : Vector Byte 16) : (s.setRegs w).await = s.await := rfl
@[simp] theorem State.setRegs_mem (w : Vector Byte 16) : (s.setRegs w).mem = s.mem := rfl
@[simp] theorem State.setRegs_keySamples (w : Vector Byte 16) : (s.setRegs w).keySamples = s.keySamples := rfl
@[simp] theorem State.setRegs_randDraws (w : Vector Byte 16) : (s.setRegs w).randDraws = s.randDraws := rfl

@[simp] theorem State.setIndex_v (w : Word) : (s.setIndex w).v = s.v := rfl
@[simp] theorem State.setIndex_i (w : Word) : (s.setIndex w).i = w := rfl
@[simp] theorem State.setIndex_pc (w : Word) : (s.setIndex w).pc = s.pc := rfl
@[simp] theorem State.setIndex_sp (w : Word) : (s.setIndex w).sp = s.sp := rfl
@[simp] theorem State.setIndex_stack (w : Word) : (s.setIndex w).stack = s.stack := rfl
@[simp] theorem State.setIndex_dt (w : Word) : (s.setIndex w).dt = s.dt := rfl
@[simp] theorem State.setIndex_st (w : Word) : (s.setIndex w).st = s.st := rfl
@[simp] theorem State.setIndex_fb (w : Word) : (s.setIndex w).fb = s.fb := rfl
@[simp] theorem State.setIndex_await (w : Word) : (s.setIndex w).await = s.await := rfl
@[simp] theorem State.setIndex_mem (w : Word) : (s.setIndex w).mem = s.mem := rfl
@[simp] theorem State.setIndex_keySamples (w : Word) : (s.setIndex w).keySamples = s.keySamples := rfl
@[simp] theorem State.setIndex_randDraws (w : Word) : (s.setIndex w).randDraws = s.randDraws := rfl

@[simp] theorem State.setDelay_v (b : Byte) : (s.setDelay b).v = s.v := rfl
@[simp] theorem State.setDelay_i (b : Byte) : (s.setDelay b).i = s.i := rfl
@[simp] theorem State.setDelay_pc (b : Byte) : (s.setDelay b).pc = s.pc := rfl
@[simp] theorem State.setDelay_sp (b : Byte) : (s.setDelay b).sp = s.sp := rfl
@[simp] theorem State.setDelay_stack (b : Byte) : (s.setDelay b).stack = s.stack := rfl
@[simp] theorem State.setDelay_dt (b : Byte) : (s.setDelay b).dt = b := rfl
@[simp] theorem State.setDelay_st (b : Byte) : (s.setDelay b).st = s.st := rfl
@[simp] theorem State.setDelay_fb (b : Byte) : (s.setDelay b).fb = s.fb := rfl
@[simp] theorem State.setDelay_await (b : Byte) : (s.setDelay b).await = s.await := rfl
@[simp] theorem State.setDelay_mem (b : Byte) : (s.setDelay b).mem = s.mem := rfl
@[simp] theorem State.setDelay_keySamples (b : Byte) : (s.setDelay b).keySamples = s.keySamples := rfl
@[simp] theorem State.setDelay_randDraws (b : Byte) : (s.setDelay b).randDraws = s.randDraws := rfl

@[simp] theorem State.setSound_v (b : Byte) : (s.setSound b).v = s.v := rfl
@[simp] theorem State.setSound_i (b : Byte) : (s.setSound b).i = s.i := rfl
@[simp] theorem State.setSound_pc (b : Byte) : (s.setSound b).pc = s.pc := rfl
@[simp] theorem State.setSound_sp (b : Byte) : (s.setSound b).sp = s.sp := rfl
@[simp] theorem State.setSound_stack (b : Byte) : (s.setSound b).stack = s.stack := rfl
@[simp] theorem State.setSound_dt (b : Byte) : (s.setSound b).dt = s.dt := rfl
@[simp] theorem State.setSound_st (b : Byte) : (s.setSound b).st = b := rfl
@[simp] theorem State.setSound_fb (b : Byte) : (s.setSound b).fb = s.fb := rfl
@[simp] theorem State.setSound_await (b : Byte) : (s.setSound b).await = s.await := rfl
@[simp] theorem State.setSound_mem (b : Byte) : (s.setSound b).mem = s.mem := rfl
@[simp] theorem State.setSound_keySamples (b : Byte) : (s.setSound b).keySamples = s.keySamples := rfl
@[simp] theorem State.setSound_randDraws (b : Byte) : (s.setSound b).randDraws = s.randDraws := rfl

@[simp] theorem State.setAwait_v (a : Option RegIdx) : (s.setAwait a).v = s.v := rfl
@[simp] theorem State.setAwait_i (a : Option RegIdx) : (s.setAwait a).i = s.i := rfl
@[simp] theorem State.setAwait_pc (a : Option RegIdx) : (s.setAwait a).pc = s.pc := rfl
@[simp] theorem State.setAwait_sp (a : Option RegIdx) : (s.setAwait a).sp = s.sp := rfl
@[simp] theorem State.setAwait_stack (a : Option RegIdx) : (s.setAwait a).stack = s.stack := rfl
@[simp] theorem State.setAwait_dt (a : Option RegIdx) : (s.setAwait a).dt = s.dt := rfl
@[simp] theorem State.setAwait_st (a : Option RegIdx) : (s.setAwait a).st = s.st := rfl
@[simp] theorem State.setAwait_fb (a : Option RegIdx) : (s.setAwait a).fb = s.fb := rfl
@[simp] theorem State.setAwait_await (a : Option RegIdx) : (s.setAwait a).await = a := rfl
@[simp] theorem State.setAwait_mem (a : Option RegIdx) : (s.setAwait a).mem = s.mem := rfl
@[simp] theorem State.setAwait_keySamples (a : Option RegIdx) : (s.setAwait a).keySamples = s.keySamples := rfl
@[simp] theorem State.setAwait_randDraws (a : Option RegIdx) : (s.setAwait a).randDraws = s.randDraws := rfl

@[simp] theorem State.setMem_v (m : Memory) : (s.setMem m).v = s.v := rfl
@[simp] theorem State.setMem_i (m : Memory) : (s.setMem m).i = s.i := rfl
@[simp] theorem State.setMem_pc (m : Memory) : (s.setMem m).pc = s.pc := rfl
@[simp] theorem State.setMem_sp (m : Memory) : (s.setMem m).sp = s.sp := rfl
@[simp] theorem State.setMem_stack (m : Memory) : (s.setMem m).stack = s.stack := rfl
@[simp] theorem State.setMem_dt (m : Memory) : (s.setMem m).dt = s.dt := rfl
@[simp] theorem State.setMem_st (m : Memory) : (s.setMem m).st = s.st := rfl
@[simp] theorem State.setMem_fb (m : Memory) : (s.setMem m).fb = s.fb := rfl
@[simp] theorem State.setMem_await (m : Memory) : (s.setMem m).await = s.await := rfl
@[simp] theorem State.setMem_mem (m : Memory) : (s.setMem m).mem = m := rfl
@[simp] theorem State.setMem_keySamples (m : Memory) : (s.setMem m).keySamples = s.keySamples := rfl
@[simp] theorem State.setMem_randDraws (m : Memory) : (s.setMem m).randDraws = s.randDraws := rfl

@[simp] theorem State.setDisplay_v (d : Display) : (s.setDisplay d).v = s.v := rfl
@[simp] theorem State.setDisplay_i (d : Display) : (s.setDisplay d).i = s.i := rfl
@[simp] theorem State.setDisplay_pc (d : Display) : (s.setDisplay d).pc = s.pc := rfl
@[simp] theorem State.setDisplay_sp (d : Display) : (s.setDisplay d).sp = s.sp := rfl
@[simp] theorem State.setDisplay_stack (d : Display) : (s.setDisplay d).stack = s.stack := rfl
@[simp] theorem State.setDisplay_dt (d : Display) : (s.setDisplay d).dt = s.dt := rfl
@[simp] theorem State.setDisplay_st (d : Display) : (s.setDisplay d).st = s.st := rfl
@[simp] theorem State.setDisplay_fb (d : Display) : (s.setDisplay d).fb = d := rfl
@[simp] theorem State.setDisplay_await (d : Display) : (s.setDisplay d).await = s.await := rfl
@[simp] theorem State.setDisplay_mem (d : Display) : (s.setDisplay d).mem = s.mem := rfl
@[simp] theorem State.setDisplay_keySamples (d : Display) : (s.setDisplay d).keySamples = s.keySamples := rfl
@[simp] theorem State.setDisplay_randDraws (d : Display) : (s.setDisplay d).randDraws = s.randDraws := rfl

@[simp] theorem State.noteKeySample_v : s.noteKeySample.v = s.v := rfl
@[simp] theorem State.noteKeySample_i : s.noteKeySample.i = s.i := rfl
@[simp] theorem State.noteKeySample_pc : s.noteKeySample.pc = s.pc := rfl
@[simp] theorem State.noteKeySample_sp : s.noteKeySample.sp = s.sp := rfl
@[simp] theorem State.noteKeySample_stack : s.noteKeySample.stack = s.stack := rfl
@[simp] theorem State.noteKeySample_dt : s.noteKeySample.dt = s.dt := rfl
@[simp] theorem State.noteKeySample_st : s.noteKeySample.st = s.st := rfl
@[simp] theorem State.noteKeySample_fb : s.noteKeySample.fb = s.fb := rfl
@[simp] theorem State.noteKeySample_await : s.noteKeySample.await = s.await := rfl
@[simp] theorem State.noteKeySample_mem : s.noteKeySample.mem = s.mem := rfl
@[simp] theorem State.noteKeySample_keySamples : s.noteKeySample.keySamples = s.keySamples + 1 := rfl
@[simp] theorem State.noteKeySample_randDraws : s.noteKeySample.randDraws = s.randDraws := rfl

@[simp] theorem State.noteRandDraw_v : s.noteRandDraw.v = s.v := rfl
@[simp] theorem State.noteRandDraw_i : s.noteRandDraw.i = s.i := rfl
@[simp] theorem State.noteRandDraw_pc : s.noteRandDraw.pc = s.pc := rfl
@[simp] theorem State.noteRandDraw_sp : s.noteRandDraw.sp = s.sp := rfl
@[simp] theorem State.noteRandDraw_stack : s.noteRandDraw.stack = s.stack := rfl
@[simp] theorem State.noteRandDraw_dt : s.noteRandDraw.dt = s.dt := rfl
@[simp] theorem State.noteRandDraw_st : s.noteRandDraw.st = s.st := rfl
@[simp] theorem State.noteRandDraw_fb : s.noteRandDraw.fb = s.fb := rfl
@[simp] theorem State.noteRandDraw_await : s.noteRandDraw.await = s.await := rfl
@[simp] theorem State.noteRandDraw_mem : s.noteRandDraw.mem = s.mem := rfl
@[simp] theorem State.noteRandDraw_keySamples : s.noteRandDraw.keySamples = s.keySamples := rfl
@[simp] theorem State.noteRandDraw_randDraws : s.noteRandDraw.randDraws = s.randDraws + 1 := rfl

@[simp] theorem State.setPc_v (w : Word) : (s.setPc w).v = s.v := rfl
@[simp] theorem State.setPc_i (w : Word) : (s.setPc w).i = s.i := rfl
@[simp] theorem State.setPc_pc (w : Word) : (s.setPc w).pc = w := rfl
@[simp] theorem State.setPc_sp (w : Word) : (s.setPc w).sp = s.sp := rfl
@[simp] theorem State.setPc_stack (w : Word) : (s.setPc w).stack = s.stack := rfl
@[simp] theorem State.setPc_dt (w : Word) : (s.setPc w).dt = s.dt := rfl
@[simp] theorem State.setPc_st (w : Word) : (s.setPc w).st = s.st := rfl
@[simp] theorem State.setPc_fb (w : Word) : (s.setPc w).fb = s.fb := rfl
@[simp] theorem State.setPc_await (w : Word) : (s.setPc w).await = s.await := rfl
@[simp] theorem State.setPc_mem (w : Word) : (s.setPc w).mem = s.mem := rfl
@[simp] theorem State.setPc_keySamples (w : Word) : (s.setPc w).keySamples = s.keySamples := rfl
@[simp] theorem State.setPc_randDraws (w : Word) : (s.setPc w).randDraws = s.randDraws := rfl

@[simp] theorem State.advance_v : s.advance.v = s.v := rfl
@[simp] theorem State.advance_i : s.advance.i = s.i := rfl
@[simp] theorem State.advance_pc : s.advance.pc = s.pc + 2 := rfl
@[simp] theorem State.advance_sp : s.advance.sp = s.sp := rfl
@[simp] theorem State.advance_stack : s.advance.stack = s.stack := rfl
@[simp] theorem State.advance_dt : s.advance.dt = s.dt := rfl
@[simp] theorem State.advance_st : s.advance.st = s.st := rfl
@[simp] theorem State.advance_fb : s.advance.fb = s.fb := rfl
@[simp] theorem State.advance_await : s.advance.await = s.await := rfl
@[simp] theorem State.advance_mem : s.advance.mem = s.mem := rfl
@[simp] theorem State.advance_keySamples : s.advance.keySamples = s.keySamples := rfl
@[simp] theorem State.advance_randDraws : s.advance.randDraws = s.randDraws := rfl

@[simp] theorem State.skipIf_v (c : Bool) : (s.skipIf c).v = s.v := rfl
@[simp] theorem State.skipIf_i (c : Bool) : (s.skipIf c).i = s.i := rfl
@[simp] theorem State.skipIf_pc (c : Bool) : (s.skipIf c).pc = if c then s.pc + 4 else s.pc + 2 := rfl
@[simp] theorem State.skipIf_sp (c : Bool) : (s.skipIf c).sp = s.sp := rfl
@[simp] theorem State.skipIf_stack (c : Bool) : (s.skipIf c).stack = s.stack := rfl
@[simp] theorem State.skipIf_dt (c : Bool) : (s.skipIf c).dt = s.dt := rfl
@[simp] theorem State.skipIf_st (c : Bool) : (s.skipIf c).st = s.st := rfl
@[simp] theorem State.skipIf_fb (c : Bool) : (s.skipIf c).fb = s.fb := rfl
@[simp] theorem State.skipIf_await (c : Bool) : (s.skipIf c).await = s.await := rfl
@[simp] theorem State.skipIf_mem (c : Bool) : (s.skipIf c).mem = s.mem := rfl
@[simp] theorem State.skipIf_keySamples (c : Bool) : (s.skipIf c).keySamples = s.keySamples := rfl
@[simp] theorem State.skipIf_randDraws (c : Bool) : (s.skipIf c).randDraws = s.randDraws := rfl

@[simp] theorem State.setResultAndFlag_v (x : RegIdx) (b : Byte) (f : Bool) : (s.setResultAndFlag x b f).v = (s.v.set x.val b).set 15 (flagByte f) := rfl
@[simp] theorem State.setResultAndFlag_i (x : RegIdx) (b : Byte) (f : Bool) : (s.setResultAndFlag x b f).i = s.i := rfl
@[simp] theorem State.setResultAndFlag_pc (x : RegIdx) (b : Byte) (f : Bool) : (s.setResultAndFlag x b f).pc = s.pc := rfl
@[simp] theorem State.setResultAndFlag_sp (x : RegIdx) (b : Byte) (f : Bool) : (s.setResultAndFlag x b f).sp = s.sp := rfl
@[simp] theorem State.setResultAndFlag_stack (x : RegIdx) (b : Byte) (f : Bool) : (s.setResultAndFlag x b f).stack = s.stack := rfl
@[simp] theorem State.setResultAndFlag_dt (x : RegIdx) (b : Byte) (f : Bool) : (s.setResultAndFlag x b f).dt = s.dt := rfl
@[simp] theorem State.setResultAndFlag_st (x : RegIdx) (b : Byte) (f : Bool) : (s.setResultAndFlag x b f).st = s.st := rfl
@[simp] theorem State.setResultAndFlag_fb (x : RegIdx) (b : Byte) (f : Bool) : (s.setResultAndFlag x b f).fb = s.fb := rfl
@[simp] theorem State.setResultAndFlag_await (x : RegIdx) (b : Byte) (f : Bool) : (s.setResultAndFlag x b f).await = s.await := rfl
@[simp] theorem State.setResultAndFlag_mem (x : RegIdx) (b : Byte) (f : Bool) : (s.setResultAndFlag x b f).mem = s.mem := rfl
@[simp] theorem State.setResultAndFlag_keySamples (x : RegIdx) (b : Byte) (f : Bool) : (s.setResultAndFlag x b f).keySamples = s.keySamples := rfl
@[simp] theorem State.setResultAndFlag_randDraws (x : RegIdx) (b : Byte) (f : Bool) : (s.setResultAndFlag x b f).randDraws = s.randDraws := rfl

end Sys2Proof.Machine
end

