-- ==== Sys2Proof/Laws/Memory.lean ====
section
/-! SUPPORT. The laws of memory: read after write, what a run of writes leaves, the canonical form, and one lemma for each
primitive that says everything it can do. -/

namespace Sys2Proof.Machine

/-! ## Read after write -/

theorem Memory.read_erase (m : Memory) (a c : Nat) :
    (m.erase a).read c = if c = a then Memory.unlisted a else m.read c := by
  induction m with
  | nil => simp only [Memory.erase, Memory.read]; split <;> simp_all
  | cons e m ih =>
    obtain ⟨b, w⟩ := e
    simp only [Memory.erase]
    split
    · subst b
      rw [ih]
      simp only [Memory.read]
      split <;> rfl
    · simp only [Memory.read, ih]
      split <;> split <;> simp_all

theorem Memory.read_insert (m : Memory) (a c : Nat) (x : Byte) :
    (m.insert a x).read c = if c = a then x else m.read c := by
  induction m with
  | nil => simp [Memory.insert, Memory.read]
  | cons e m ih =>
    obtain ⟨b, w⟩ := e
    simp only [Memory.insert]
    split
    · simp [Memory.read]
    · split
      · subst b
        simp only [Memory.read]
        split <;> rfl
      · simp only [Memory.read, ih]
        split <;> split <;> simp_all

/-- Read after write (R51): the cell written holds the byte, every other cell is as before. -/
theorem Memory.read_write (m : Memory) (a c : Nat) (x : Byte) :
    (m.write a x).read c = if c = a then x else m.read c := by
  unfold Memory.write
  split
  · rename_i h; rw [Memory.read_erase, h]
  · exact Memory.read_insert m a c x

/-- What a run of writes leaves at each address. -/
theorem Memory.read_writeBytes (xs : List Byte) : ∀ (m : Memory) (a c : Nat),
    (m.writeBytes a xs).read c = if h : a ≤ c ∧ c < a + xs.length then xs[c - a]'(by omega) else m.read c := by
  induction xs with
  | nil => intro m a c; simp [Memory.writeBytes]
  | cons x xs ih =>
    intro m a c
    rw [Memory.writeBytes, ih, Memory.read_write]
    by_cases h1 : c = a
    · subst c
      simp
    · by_cases h2 : a ≤ c ∧ c < a + (x :: xs).length
      · have h3 : a + 1 ≤ c ∧ c < a + 1 + xs.length := by simp at h2; omega
        have h4 : c - a = (c - (a + 1)) + 1 := by omega
        simp only [h2, h3, and_self, ↓reduceDIte, h4, List.getElem_cons_succ]
      · have h3 : ¬ (a + 1 ≤ c ∧ c < a + 1 + xs.length) := by simp at h2; omega
        simp only [h2, h3, ↓reduceDIte, h1, ↓reduceIte]

@[simp] theorem Memory.length_readBytes (m : Memory) (n : Nat) : ∀ a, (m.readBytes a n).length = n := by
  induction n with
  | zero => intro a; rfl
  | succ n ih => intro a; simp [Memory.readBytes, ih]

theorem Memory.getElem_readBytes (m : Memory) (n : Nat) : ∀ (a k : Nat) (h : k < (m.readBytes a n).length),
    (m.readBytes a n)[k] = m.read (a + k) := by
  induction n with
  | zero => intro a k h; simp at h
  | succ n ih =>
    intro a k h
    cases k with
    | zero => rfl
    | succ k =>
      simp only [Memory.readBytes, List.getElem_cons_succ]
      rw [ih]
      congr 1
      omega

/-! ## The canonical form -/

theorem Memory.wfFrom_mono (m : Memory) {lo lo' : Nat} (h : lo' ≤ lo) (hm : m.wfFrom lo = true) :
    m.wfFrom lo' = true := by
  cases m with
  | nil => rfl
  | cons e m =>
    obtain ⟨b, w⟩ := e
    simp only [Memory.wfFrom, Bool.and_eq_true, decide_eq_true_eq] at hm ⊢
    exact ⟨⟨⟨by omega, hm.1.1.2⟩, hm.1.2⟩, hm.2⟩

theorem Memory.wfFrom_erase (a : Nat) (m : Memory) : ∀ {lo : Nat}, m.wfFrom lo = true → (m.erase a).wfFrom lo = true := by
  induction m with
  | nil => intro lo h; exact h
  | cons e m ih =>
    obtain ⟨b, w⟩ := e
    intro lo h
    simp only [Memory.wfFrom, Bool.and_eq_true, decide_eq_true_eq] at h
    simp only [Memory.erase]
    split
    · exact ih (Memory.wfFrom_mono m (by omega) h.2)
    · simp only [Memory.wfFrom, Bool.and_eq_true, decide_eq_true_eq]
      exact ⟨h.1, ih h.2⟩

theorem Memory.wfFrom_insert (a : Nat) (x : Byte) (ha : a < memSize) (hx : x ≠ Memory.unlisted a) (m : Memory) :
    ∀ {lo : Nat}, lo ≤ a → m.wfFrom lo = true → (m.insert a x).wfFrom lo = true := by
  induction m with
  | nil => intro lo hlo h; simp [Memory.insert, Memory.wfFrom, hlo, ha, hx]
  | cons e m ih =>
    obtain ⟨b, w⟩ := e
    intro lo hlo h
    simp only [Memory.wfFrom, Bool.and_eq_true, decide_eq_true_eq] at h
    simp only [Memory.insert]
    split
    · simp only [Memory.wfFrom, Bool.and_eq_true, decide_eq_true_eq]
      exact ⟨⟨⟨hlo, ha⟩, hx⟩, ⟨⟨by omega, h.1.1.2⟩, h.1.2⟩, h.2⟩
    · split
      · subst b
        simp only [Memory.wfFrom, Bool.and_eq_true, decide_eq_true_eq]
        exact ⟨⟨⟨hlo, ha⟩, hx⟩, h.2⟩
      · simp only [Memory.wfFrom, Bool.and_eq_true, decide_eq_true_eq]
        exact ⟨h.1, ih (by omega) h.2⟩

/-- A write of a byte inside memory keeps the canonical form. -/
theorem Memory.wf_write (m : Memory) (a : Nat) (x : Byte) (ha : a < memSize) (hm : m.wf = true) :
    (m.write a x).wf = true := by
  unfold Memory.write
  split
  · exact Memory.wfFrom_erase a m hm
  · rename_i hx; exact Memory.wfFrom_insert a x ha hx m (Nat.zero_le a) hm

/-- A run of writes inside memory keeps the canonical form. -/
theorem Memory.wf_writeBytes (xs : List Byte) : ∀ (m : Memory) (a : Nat), a + xs.length ≤ memSize → m.wf = true →
    (m.writeBytes a xs).wf = true := by
  induction xs with
  | nil => intro m a _ hm; exact hm
  | cons x xs ih =>
    intro m a ha hm
    simp only [List.length_cons] at ha
    exact ih _ _ (by omega) (Memory.wf_write m a x (by omega) hm)

@[simp] theorem Memory.wf_nil : Memory.wf [] = true := rfl

/-! ## The primitives, each by everything it can do -/

/-- `MemRead` (R50). -/
theorem State.memRead_eq_ok {s : State} {a : Nat} {b : Byte} :
    s.memRead a = .ok b ↔ a < memSize ∧ s.mem.read a = b := by
  unfold State.memRead
  split <;> simp_all

/-- `MemRead` faults in one way only (R50). -/
theorem State.memRead_eq_error {s : State} {a : Nat} {f : Fault} :
    s.memRead a = .error f ↔ memSize ≤ a ∧ f = .addressOutOfRange := by
  unfold State.memRead
  split
  · simp; omega
  · simp [eq_comm]; omega

/-- `MemWrite` (R51). -/
theorem State.memWrite_eq_ok {s t : State} {a : Nat} {x : Byte} :
    s.memWrite a x = .ok t ↔ a < memSize ∧ t = s.setMem (s.mem.write a x) := by
  unfold State.memWrite
  split <;> simp_all [eq_comm]

/-- `MemWrite` faults in one way only (R51). -/
theorem State.memWrite_eq_error {s : State} {a : Nat} {x : Byte} {f : Fault} :
    s.memWrite a x = .error f ↔ memSize ≤ a ∧ f = .addressOutOfRange := by
  unfold State.memWrite
  split
  · simp; omega
  · simp [eq_comm]; omega

/-- A range that lies in memory, or is empty, is loaded whole (R64). -/
theorem State.loadRange_eq_ok {s : State} {a m : Nat} {xs : List Byte} :
    s.loadRange a m = .ok xs ↔ (m = 0 ∨ a + m ≤ memSize) ∧ xs = s.mem.readBytes a m := by
  unfold State.loadRange
  split <;> simp [eq_comm] <;> omega

/-- A load of a range faults in one way only (R64). -/
theorem State.loadRange_eq_error {s : State} {a m : Nat} {f : Fault} :
    s.loadRange a m = .error f ↔ (1 ≤ m ∧ memSize < a + m) ∧ f = .addressOutOfRange := by
  unfold State.loadRange
  split
  · simp [eq_comm]; omega
  · simp; omega

/-- An instruction's store lands whole when its range is empty or lies between the guard and the end of memory (R55). -/
theorem State.storeRange_eq_ok {s t : State} {a : Nat} {xs : List Byte} :
    s.storeRange a xs = .ok t ↔
      (xs.length = 0 ∨ storeFloor ≤ a ∧ a + xs.length ≤ memSize) ∧ t = s.setMem (s.mem.writeBytes a xs) := by
  unfold State.storeRange
  split
  · exact ⟨fun h => (by cases h), fun h => (by omega)⟩
  · split
    · exact ⟨fun h => (by cases h), fun h => (by omega)⟩
    · exact ⟨fun h => ⟨by omega, by cases h; rfl⟩, fun h => by rw [h.2]⟩

/-- An instruction's store faults in one way only (R55, R64). -/
theorem State.storeRange_eq_error {s : State} {a : Nat} {xs : List Byte} {f : Fault} :
    s.storeRange a xs = .error f ↔
      (1 ≤ xs.length ∧ (a < storeFloor ∨ memSize < a + xs.length)) ∧ f = .addressOutOfRange := by
  unfold State.storeRange
  split
  · exact ⟨fun h => ⟨by omega, by cases h; rfl⟩, fun h => by rw [h.2]⟩
  · split
    · exact ⟨fun h => ⟨by omega, by cases h; rfl⟩, fun h => by rw [h.2]⟩
    · exact ⟨fun h => (by cases h), fun h => by omega⟩

/-- `Fetch` (R53): it answers the big-endian word at PC exactly when both bytes are in memory. -/
theorem State.fetch_eq_ok {s : State} {w : Word} :
    s.fetch = .ok w ↔
      s.pc.toNat + 1 < memSize ∧ w = wordOfBytes (s.mem.read s.pc.toNat) (s.mem.read (s.pc.toNat + 1)) := by
  unfold State.fetch State.memRead
  by_cases h1 : s.pc.toNat + 1 < memSize
  · have h2 : s.pc.toNat < memSize := by omega
    simp [h1, h2, eq_comm]
  · by_cases h2 : s.pc.toNat < memSize <;> simp [h1, h2]

/-- `Fetch` faults in one way only (R53). -/
theorem State.fetch_eq_error {s : State} {f : Fault} :
    s.fetch = .error f ↔ memSize ≤ s.pc.toNat + 1 ∧ f = .addressOutOfRange := by
  unfold State.fetch State.memRead
  by_cases h1 : s.pc.toNat + 1 < memSize
  · have h2 : s.pc.toNat < memSize := by omega
    simp [h1, h2]
  · by_cases h2 : s.pc.toNat < memSize <;> simp [h1, h2, eq_comm] <;> omega

/-- What is fetched depends on PC and memory only (R84, R63). -/
theorem State.fetch_congr {s t : State} (hpc : t.pc = s.pc) (hmem : t.mem = s.mem) : t.fetch = s.fetch := by
  unfold State.fetch State.memRead
  rw [hpc, hmem]

end Sys2Proof.Machine
end

