-- ==== Sys2Proof/Laws/Machine.lean ====
section
/-! SUPPORT. The laws of registers, the call stack, the display and the register range: one lemma for each shared
operation that says everything it can do. -/

namespace Sys2Proof.Machine

/-! ## General registers -/

theorem State.reg_setReg (s : State) (x r : RegIdx) (b : Byte) :
    (s.setReg x b).reg r = if r = x then b else s.reg r := by
  simp only [State.reg, State.setReg_v]
  rw [Vector.getElem_set]
  simp only [Fin.ext_iff, eq_comm]

@[simp] theorem State.reg_setReg_same (s : State) (x : RegIdx) (b : Byte) : (s.setReg x b).reg x = b := by
  simp [State.reg_setReg]

theorem State.reg_setReg_other (s : State) {x r : RegIdx} (b : Byte) (h : r ≠ x) : (s.setReg x b).reg r = s.reg r := by
  simp [State.reg_setReg, h]

/-- A register reads the register file only: states with the same file have the same registers. -/
theorem State.reg_congr {s t : State} (h : t.v = s.v) (r : RegIdx) : t.reg r = s.reg r := by
  simp [State.reg, h]

@[simp] theorem State.reg_setIndex (s : State) (w : Word) (r : RegIdx) : (s.setIndex w).reg r = s.reg r := rfl
@[simp] theorem State.reg_setDelay (s : State) (b : Byte) (r : RegIdx) : (s.setDelay b).reg r = s.reg r := rfl
@[simp] theorem State.reg_setSound (s : State) (b : Byte) (r : RegIdx) : (s.setSound b).reg r = s.reg r := rfl
@[simp] theorem State.reg_setAwait (s : State) (a : Option RegIdx) (r : RegIdx) : (s.setAwait a).reg r = s.reg r := rfl
@[simp] theorem State.reg_setMem (s : State) (m : Memory) (r : RegIdx) : (s.setMem m).reg r = s.reg r := rfl
@[simp] theorem State.reg_setDisplay (s : State) (d : Display) (r : RegIdx) : (s.setDisplay d).reg r = s.reg r := rfl
@[simp] theorem State.reg_noteKeySample (s : State) (r : RegIdx) : s.noteKeySample.reg r = s.reg r := rfl
@[simp] theorem State.reg_noteRandDraw (s : State) (r : RegIdx) : s.noteRandDraw.reg r = s.reg r := rfl
@[simp] theorem State.reg_setPc (s : State) (w : Word) (r : RegIdx) : (s.setPc w).reg r = s.reg r := rfl
@[simp] theorem State.reg_advance (s : State) (r : RegIdx) : s.advance.reg r = s.reg r := rfl
@[simp] theorem State.reg_skipIf (s : State) (c : Bool) (r : RegIdx) : (s.skipIf c).reg r = s.reg r := rfl

/-- Result and flag (R133): the flag is what VF holds, the result is what Vx holds when x is not VF. -/
theorem State.reg_setResultAndFlag (s : State) (x r : RegIdx) (b : Byte) (f : Bool) :
    (s.setResultAndFlag x b f).reg r = if r = vf then flagByte f else if r = x then b else s.reg r := by
  unfold State.setResultAndFlag
  rw [State.reg_setReg, State.reg_setReg]

/-- Filling registers k up from a list (R145): the register file afterwards. -/
theorem getElem_fillRegs (bs : List Byte) : ∀ (v : Vector Byte 16) (k j : Nat) (hj : j < 16),
    (fillRegs v k bs)[j] = if h : k ≤ j ∧ j < k + bs.length then bs[j - k]'(by omega) else v[j] := by
  induction bs with
  | nil =>
    intro v k j hj
    have h : ¬ (k ≤ j ∧ j < k + ([] : List Byte).length) := by simp
    simp [fillRegs]
  | cons b bs ih =>
    intro v k j hj
    rw [fillRegs, ih, Vector.getElem_setIfInBounds]
    by_cases h1 : j = k
    · subst j; simp
    · by_cases h2 : k ≤ j ∧ j < k + (b :: bs).length
      · have h3 : k + 1 ≤ j ∧ j < k + 1 + bs.length := by simp at h2; omega
        have h4 : j - k = (j - (k + 1)) + 1 := by omega
        simp only [h2, h3, and_self, ↓reduceDIte, h4, List.getElem_cons_succ]
      · have h3 : ¬ (k + 1 ≤ j ∧ j < k + 1 + bs.length) := by simp at h2; omega
        have h5 : ¬ k = j := fun h => h1 h.symm
        simp only [h2, h3, ↓reduceDIte, h5, ↓reduceIte]

@[simp] theorem State.length_regsUpTo (s : State) (x : RegIdx) : (s.regsUpTo x).length = x.val + 1 := by
  simp [State.regsUpTo]

/-- The k-th byte of V0 to Vx is V[k] (R144). -/
theorem State.getElem_regsUpTo (s : State) (x : RegIdx) (k : Nat) (h : k < (s.regsUpTo x).length) :
    (s.regsUpTo x)[k] = s.v[k]'(by simp at h; omega) := by
  simp [State.regsUpTo]

/-! ## Call stack -/

/-- Push, when it answers a state (R29, R103). -/
theorem State.push_eq_ok {s t : State} {w : Word} :
    s.push w = .ok t ↔ ∃ h : s.sp.val < 16,
      t = { s with sp := ⟨s.sp.val + 1, by omega⟩, stack := s.stack.set s.sp.val w } := by
  unfold State.push
  split <;> simp_all [eq_comm]

/-- Push faults in one way only, at depth 16 (R175). -/
theorem State.push_eq_error {s : State} {w : Word} {f : Fault} :
    s.push w = .error f ↔ s.sp.val = 16 ∧ f = .stackOverflow := by
  unfold State.push
  split
  · simp; omega
  · simp [eq_comm]; omega

/-- Pop, when it answers (R29, R101): the top entry, and the depth one less. -/
theorem State.pop_eq_ok {s t : State} {w : Word} :
    s.pop = .ok (w, t) ↔ ∃ h : 0 < s.sp.val,
      w = s.stack[s.sp.val - 1]'(by omega) ∧ t = { s with sp := ⟨s.sp.val - 1, by omega⟩ } := by
  unfold State.pop
  split <;> simp_all [eq_comm]

/-- Pop faults in one way only, at depth 0 (R176). -/
theorem State.pop_eq_error {s : State} {f : Fault} :
    s.pop = .error f ↔ s.sp.val = 0 ∧ f = .stackUnderflow := by
  unfold State.pop
  split
  · simp; omega
  · simp [eq_comm]; omega

/-! ## Display -/

/-- A pixel is the one of its reduced coordinates (R34). -/
theorem Display.pixel_mod (d : Display) (row col : Nat) : d.pixel (row % 32) (col % 64) = d.pixel row col := by
  simp [Display.pixel]

/-- Flipping a pixel changes that one and no other (R151). -/
theorem Display.pixel_flip (d : Display) (row col row' col' : Nat) :
    (d.flip row col).pixel row' col' =
      if row' % 32 = row % 32 ∧ col' % 64 = col % 64 then !d.pixel row' col' else d.pixel row' col' := by
  simp only [Display.flip, Display.pixel, Vector.getElem_set]
  by_cases h1 : row' % 32 = row % 32
  · by_cases h2 : col' % 64 = col % 64
    · simp [h1, h2]
    · have h3 : ¬ col % 64 = col' % 64 := fun h => h2 h.symm
      simp [h1, h2, h3]
  · have h3 : ¬ row % 32 = row' % 32 := fun h => h1 h.symm
    simp [h1, h3]

@[simp] theorem Display.pixel_blank (row col : Nat) : Display.blank.pixel row col = false := by
  simp [Display.pixel, Display.blank]

end Sys2Proof.Machine
end

