-- ==== Sys2Proof/Laws/Exec.lean ====
section
/-! SUPPORT. For each meaning that can fault, everything it can do: its next state and when it has one, and its fault and
when it raises it. The other meanings are next states by definition. -/

namespace Sys2Proof.Machine

theorem commit_eq_next {r : Except Fault State} {t : State} : commit r = .next t ↔ r = .ok t := by
  cases r <;> simp [commit, raise]

theorem commit_eq_fault {r : Except Fault State} {f : Fault} : commit r = .fault f ↔ r = .error f := by
  cases r <;> simp [commit, raise]

theorem commit_ne_refused {r : Except Fault State} {q : Refusal} : commit r ≠ .refused q := by
  cases r <;> simp [commit, raise]

/-! ## 00EE and 2nnn -/

theorem execRet_eq_next {s t : State} :
    execRet s = .next t ↔ ∃ h : 0 < s.sp.val,
      t = { s with pc := s.stack[s.sp.val - 1]'(by omega), sp := ⟨s.sp.val - 1, by omega⟩ } := by
  unfold execRet
  rw [commit_eq_next]
  unfold State.pop
  split
  · rename_i h
    split at h
    · cases h
    · simp_all
  · rename_i w u h
    split at h
    · cases h; simp_all [State.setPc, eq_comm]
    · cases h

theorem execRet_eq_fault {s : State} {f : Fault} : execRet s = .fault f ↔ s.sp.val = 0 ∧ f = .stackUnderflow := by
  unfold execRet
  rw [commit_eq_fault, ← State.pop_eq_error]
  split <;> simp_all

theorem execCall_eq_next {nnn : Addr12} {s t : State} :
    execCall nnn s = .next t ↔ ∃ h : s.sp.val < 16,
      t = { s with
        pc := zextAddr nnn
        sp := ⟨s.sp.val + 1, by omega⟩
        stack := s.stack.set s.sp.val (s.pc + 2) } := by
  unfold execCall
  rw [commit_eq_next]
  unfold State.push
  split
  · rename_i h
    split at h
    · cases h
    · simp_all
  · rename_i u h
    split at h
    · cases h; simp_all [State.setPc, eq_comm]
    · cases h

theorem execCall_eq_fault {nnn : Addr12} {s : State} {f : Fault} :
    execCall nnn s = .fault f ↔ s.sp.val = 16 ∧ f = .stackOverflow := by
  unfold execCall
  rw [commit_eq_fault, ← State.push_eq_error (s := s) (w := s.pc + 2)]
  split <;> simp_all

/-! ## Fx33, Fx55 and Fx65 -/

theorem State.storeAndAdvance_eq_next {s t : State} {xs : List Byte} :
    s.storeAndAdvance xs = .next t ↔
      (xs.length = 0 ∨ storeFloor ≤ s.base ∧ s.base + xs.length ≤ memSize) ∧
        t = (s.setMem (s.mem.writeBytes s.base xs)).advance := by
  unfold State.storeAndAdvance
  rw [commit_eq_next]
  split
  · rename_i f h
    have h' := (State.storeRange_eq_error.mp h).1
    simp only [reduceCtorEq, false_iff]
    omega
  · rename_i u h
    obtain ⟨h', rfl⟩ := State.storeRange_eq_ok.mp h
    simp only [h', true_and, Except.ok.injEq]
    exact eq_comm

theorem State.storeAndAdvance_eq_fault {s : State} {xs : List Byte} {f : Fault} :
    s.storeAndAdvance xs = .fault f ↔
      (1 ≤ xs.length ∧ (s.base < storeFloor ∨ memSize < s.base + xs.length)) ∧ f = .addressOutOfRange := by
  unfold State.storeAndAdvance
  rw [commit_eq_fault, ← State.storeRange_eq_error (s := s)]
  split <;> simp_all

theorem execLdVxMi_eq_next {x : RegIdx} {s t : State} :
    execLdVxMi x s = .next t ↔ s.base + (x.val + 1) ≤ memSize ∧
      t = (s.setRegs (fillRegs s.v 0 (s.mem.readBytes s.base (x.val + 1)))).advance := by
  unfold execLdVxMi
  rw [commit_eq_next]
  split
  · rename_i f h
    have h' := (State.loadRange_eq_error.mp h).1
    simp only [reduceCtorEq, false_iff]
    omega
  · rename_i xs h
    obtain ⟨h', rfl⟩ := State.loadRange_eq_ok.mp h
    have h'' : s.base + (x.val + 1) ≤ memSize := by omega
    simp [h'', eq_comm]

theorem execLdVxMi_eq_fault {x : RegIdx} {s : State} {f : Fault} :
    execLdVxMi x s = .fault f ↔ memSize < s.base + (x.val + 1) ∧ f = .addressOutOfRange := by
  unfold execLdVxMi
  rw [commit_eq_fault]
  have h := @State.loadRange_eq_error s s.base (x.val + 1) f
  have e : (1 ≤ x.val + 1 ∧ memSize < s.base + (x.val + 1)) ↔ memSize < s.base + (x.val + 1) := by omega
  rw [e] at h
  rw [← h]
  split <;> simp_all

/-! ## Dxyn -/

/-- The display and the collision flag that Dxyn computes. -/
def drawn (x y : RegIdx) (n : Nibble) (s : State) : Display × Bool :=
  drawRows (s.mem.readBytes s.base n.toNat) (s.reg y).toNat (s.reg x).toNat (s.fb, false)

theorem execDrwVxVyN_eq_next {x y : RegIdx} {n : Nibble} {s t : State} :
    execDrwVxVyN x y n s = .next t ↔ (n.toNat = 0 ∨ s.base + n.toNat ≤ memSize) ∧
      t = ((s.setDisplay (drawn x y n s).1).setReg vf (flagByte (drawn x y n s).2)).advance := by
  unfold execDrwVxVyN
  rw [commit_eq_next]
  split
  · rename_i f h
    have h' := (State.loadRange_eq_error.mp h).1
    simp only [reduceCtorEq, false_iff]
    omega
  · rename_i rows h
    obtain ⟨h', rfl⟩ := State.loadRange_eq_ok.mp h
    simp only [h', true_and, Except.ok.injEq]
    exact eq_comm

theorem execDrwVxVyN_eq_fault {x y : RegIdx} {n : Nibble} {s : State} {f : Fault} :
    execDrwVxVyN x y n s = .fault f ↔ (1 ≤ n.toNat ∧ memSize < s.base + n.toNat) ∧ f = .addressOutOfRange := by
  unfold execDrwVxVyN
  rw [commit_eq_fault, ← State.loadRange_eq_error (s := s)]
  split <;> simp_all

end Sys2Proof.Machine
end

