-- ==== Sys2Proof/Laws/Operands.lean ====
section
/-! SUPPORT. The operand forms and the arithmetic as numbers: one lemma for each, from which the results of the
instructions follow. -/

namespace Sys2Proof.Machine

@[simp] theorem toNat_zextAddr (nnn : Addr12) : (zextAddr nnn).toNat = nnn.toNat := by
  have := nnn.isLt
  simp [zextAddr]
  omega

@[simp] theorem toNat_zextByte (b : Byte) : (zextByte b).toNat = b.toNat := by
  have := b.isLt
  simp [zextByte]
  omega

@[simp] theorem val_lowNibble (b : Byte) : (lowNibble b).val = b.toNat % 16 := by simp [lowNibble]

theorem toNat_glyphAddress (d : Fin 16) : (glyphAddress d).toNat = 5 * d.val := by
  simp [glyphAddress]
  omega

theorem toNat_addResult (a b : Byte) : (addResult a b).toNat = (a.toNat + b.toNat) % 256 := by simp [addResult]

theorem toNat_subResult (a b : Byte) : (subResult a b).toNat = (a.toNat + 256 - b.toNat) % 256 := by
  have := a.isLt
  have := b.isLt
  simp [subResult]
  omega

theorem toNat_shrResult (a : Byte) : (shrResult a).toNat = a.toNat / 2 := by
  simp [shrResult, Nat.shiftRight_eq_div_pow]

theorem toNat_shlResult (a : Byte) : (shlResult a).toNat = 2 * a.toNat % 256 := by
  simp [shlResult, Nat.shiftLeft_eq, Nat.mul_comm]

@[simp] theorem flagByte_true : flagByte true = 0x01 := rfl

@[simp] theorem flagByte_false : flagByte false = 0x00 := rfl

theorem toNat_flagByte_shrFlag (a : Byte) : (flagByte (shrFlag a)).toNat = a.toNat % 2 := by
  revert a
  decide

theorem toNat_flagByte_shlFlag (a : Byte) : (flagByte (shlFlag a)).toNat = a.toNat / 128 := by
  revert a
  decide

/-- The three decimal digits as numbers (R143). -/
theorem bcdDigits_toNat (b : Byte) :
    (bcdDigits b).map BitVec.toNat = [b.toNat / 100, b.toNat / 10 % 10, b.toNat % 10] := by
  have := b.isLt
  simp [bcdDigits]
  omega

end Sys2Proof.Machine
end

