-- ==== Sys2Proof/Laws/PerInstr.lean ====
section
/-! SUPPORT. The statements made per instruction. Family EncodesLegal: the word the encoder gives an instruction is none
of the illegal words of spec/30_encoding.md R89. -/

namespace Sys2Proof.Laws.EncodesLegal

/-- The encoded word is well formed. -/
def Statement (i : Instr) : Prop := WellFormedWord (encode i)

/-- A word with one of the first digits that are legal whatever follows (R84). -/
theorem legal_of_digit {w : Word} (h : w.toNat / 0x1000 ∈ [1, 2, 3, 4, 6, 7, 10, 11, 12, 13]) : WellFormedWord w := by
  simp only [List.mem_cons, List.not_mem_nil, or_false] at h
  simp only [WellFormedWord, illegalClass]
  repeat rw [if_neg (by omega)]

/-- A word with first digit 5 or 9 and last digit 0. -/
theorem legal_of_pair {w : Word} (h : w.toNat / 0x1000 = 5 ∨ w.toNat / 0x1000 = 9) (h0 : w.toNat % 0x10 = 0) :
    WellFormedWord w := by
  simp only [WellFormedWord, illegalClass]
  repeat rw [if_neg (by omega)]

/-- A word with first digit 8 and a last digit of R86. -/
theorem legal_of_eight {w : Word} (h : w.toNat / 0x1000 = 8)
    (h0 : w.toNat % 0x10 ∈ [0, 1, 2, 3, 4, 5, 6, 7, 14]) : WellFormedWord w := by
  simp only [List.mem_cons, List.not_mem_nil, or_false] at h0
  simp only [WellFormedWord, illegalClass, List.mem_cons, List.not_mem_nil, or_false]
  repeat rw [if_neg (by omega)]

/-- A word with first digit E and a second byte of R87. -/
theorem legal_of_key {w : Word} (h : w.toNat / 0x1000 = 0xE) (h0 : w.toNat % 0x100 ∈ [0x9E, 0xA1]) :
    WellFormedWord w := by
  simp only [WellFormedWord, illegalClass, h0, not_true_eq_false, and_false, if_false]
  repeat rw [if_neg (by omega)]

/-- A word with first digit F and a second byte of R88. -/
theorem legal_of_misc {w : Word} (h : w.toNat / 0x1000 = 0xF)
    (h0 : w.toNat % 0x100 ∈ [0x07, 0x0A, 0x15, 0x18, 0x1E, 0x29, 0x33, 0x55, 0x65]) : WellFormedWord w := by
  simp only [WellFormedWord, illegalClass, h0, not_true_eq_false, and_false, if_false]
  repeat rw [if_neg (by omega)]

/-- Format A is legal with a first digit that is legal whatever follows; the digit is checked by evaluation. -/
theorem legal_formatA {n : Nibble} {a : Addr12} (h : [1, 2, 3, 4, 6, 7, 10, 11, 12, 13].contains n.toNat = true) :
    WellFormedWord (formatA n a) := by
  have e : (formatA n a).toNat / 0x1000 = n.toNat := by rw [toNat_formatA]; omega
  exact legal_of_digit (e ▸ List.contains_iff_mem.mp h)

/-- Format XK with such a first digit. -/
theorem legal_formatXK {n : Nibble} {x : RegIdx} {kk : Byte}
    (h : [1, 2, 3, 4, 6, 7, 10, 11, 12, 13].contains n.toNat = true) : WellFormedWord (formatXK n x kk) := by
  have e : (formatXK n x kk).toNat / 0x1000 = n.toNat := by rw [toNat_formatXK]; omega
  exact legal_of_digit (e ▸ List.contains_iff_mem.mp h)

/-- Format XYN with such a first digit. -/
theorem legal_formatXYN {n : Nibble} {x y : RegIdx} {k : Nibble}
    (h : [1, 2, 3, 4, 6, 7, 10, 11, 12, 13].contains n.toNat = true) : WellFormedWord (formatXYN n x y k) := by
  have e : (formatXYN n x y k).toNat / 0x1000 = n.toNat := by rw [toNat_formatXYN]; omega
  exact legal_of_digit (e ▸ List.contains_iff_mem.mp h)

/-- Format XY with first digit 5 or 9 and last digit 0. -/
theorem legal_pair {n : Nibble} {x y : RegIdx} (h : [5, 9].contains n.toNat = true) :
    WellFormedWord (formatXYN n x y 0x0#4) := by
  have e : (formatXYN n x y 0x0#4).toNat / 0x1000 = n.toNat := by rw [toNat_formatXYN]; omega
  have e0 : (formatXYN n x y 0x0#4).toNat % 0x10 = 0 := by rw [toNat_formatXYN]; simp; omega
  have := List.contains_iff_mem.mp h
  simp only [List.mem_cons, List.not_mem_nil, or_false] at this
  exact legal_of_pair (e ▸ this) e0

/-- Format XY with first digit 8 and a last digit of R86. -/
theorem legal_eight {x y : RegIdx} {k : Nibble} (h : [0, 1, 2, 3, 4, 5, 6, 7, 14].contains k.toNat = true) :
    WellFormedWord (formatXYN 0x8#4 x y k) := by
  have e : (formatXYN 0x8#4 x y k).toNat / 0x1000 = 8 := by rw [toNat_formatXYN]; simp; omega
  have e0 : (formatXYN 0x8#4 x y k).toNat % 0x10 = k.toNat := by rw [toNat_formatXYN]; simp; omega
  exact legal_of_eight e (e0 ▸ List.contains_iff_mem.mp h)

/-- Format X with first digit E and a second byte of R87. -/
theorem legal_key {x : RegIdx} {kk : Byte} (h : [0x9E, 0xA1].contains kk.toNat = true) :
    WellFormedWord (formatXK 0xE#4 x kk) := by
  have e : (formatXK 0xE#4 x kk).toNat / 0x1000 = 0xE := by rw [toNat_formatXK]; simp; omega
  have e0 : (formatXK 0xE#4 x kk).toNat % 0x100 = kk.toNat := by rw [toNat_formatXK]; simp; omega
  exact legal_of_key e (e0 ▸ List.contains_iff_mem.mp h)

/-- Format X with first digit F and a second byte of R88. -/
theorem legal_misc {x : RegIdx} {kk : Byte}
    (h : [0x07, 0x0A, 0x15, 0x18, 0x1E, 0x29, 0x33, 0x55, 0x65].contains kk.toNat = true) :
    WellFormedWord (formatXK 0xF#4 x kk) := by
  have e : (formatXK 0xF#4 x kk).toNat / 0x1000 = 0xF := by rw [toNat_formatXK]; simp; omega
  have e0 : (formatXK 0xF#4 x kk).toNat % 0x100 = kk.toNat := by rw [toNat_formatXK]; simp; omega
  exact legal_of_misc e (e0 ▸ List.contains_iff_mem.mp h)

theorem cls : Statement .cls := rfl
theorem ret : Statement .ret := rfl
theorem jp (nnn : Addr12) : Statement (.jp nnn) := legal_formatA rfl
theorem call (nnn : Addr12) : Statement (.call nnn) := legal_formatA rfl
theorem ldINnn (nnn : Addr12) : Statement (.ldINnn nnn) := legal_formatA rfl
theorem jpV0Nnn (nnn : Addr12) : Statement (.jpV0Nnn nnn) := legal_formatA rfl
theorem seVxKk (x : RegIdx) (kk : Byte) : Statement (.seVxKk x kk) := legal_formatXK rfl
theorem sneVxKk (x : RegIdx) (kk : Byte) : Statement (.sneVxKk x kk) := legal_formatXK rfl
theorem ldVxKk (x : RegIdx) (kk : Byte) : Statement (.ldVxKk x kk) := legal_formatXK rfl
theorem addVxKk (x : RegIdx) (kk : Byte) : Statement (.addVxKk x kk) := legal_formatXK rfl
theorem rndVxKk (x : RegIdx) (kk : Byte) : Statement (.rndVxKk x kk) := legal_formatXK rfl
theorem drwVxVyN (x y : RegIdx) (n : Nibble) : Statement (.drwVxVyN x y n) := legal_formatXYN rfl
theorem seVxVy (x y : RegIdx) : Statement (.seVxVy x y) := legal_pair rfl
theorem sneVxVy (x y : RegIdx) : Statement (.sneVxVy x y) := legal_pair rfl
theorem ldVxVy (x y : RegIdx) : Statement (.ldVxVy x y) := legal_eight rfl
theorem orVxVy (x y : RegIdx) : Statement (.orVxVy x y) := legal_eight rfl
theorem andVxVy (x y : RegIdx) : Statement (.andVxVy x y) := legal_eight rfl
theorem xorVxVy (x y : RegIdx) : Statement (.xorVxVy x y) := legal_eight rfl
theorem addVxVy (x y : RegIdx) : Statement (.addVxVy x y) := legal_eight rfl
theorem subVxVy (x y : RegIdx) : Statement (.subVxVy x y) := legal_eight rfl
theorem shrVx (x y : RegIdx) : Statement (.shrVx x y) := legal_eight rfl
theorem subnVxVy (x y : RegIdx) : Statement (.subnVxVy x y) := legal_eight rfl
theorem shlVx (x y : RegIdx) : Statement (.shlVx x y) := legal_eight rfl
theorem skpVx (x : RegIdx) : Statement (.skpVx x) := legal_key rfl
theorem sknpVx (x : RegIdx) : Statement (.sknpVx x) := legal_key rfl
theorem ldVxDt (x : RegIdx) : Statement (.ldVxDt x) := legal_misc rfl
theorem ldVxK (x : RegIdx) : Statement (.ldVxK x) := legal_misc rfl
theorem ldDtVx (x : RegIdx) : Statement (.ldDtVx x) := legal_misc rfl
theorem ldStVx (x : RegIdx) : Statement (.ldStVx x) := legal_misc rfl
theorem addIVx (x : RegIdx) : Statement (.addIVx x) := legal_misc rfl
theorem ldFVx (x : RegIdx) : Statement (.ldFVx x) := legal_misc rfl
theorem ldBVx (x : RegIdx) : Statement (.ldBVx x) := legal_misc rfl
theorem ldMiVx (x : RegIdx) : Statement (.ldMiVx x) := legal_misc rfl
theorem ldVxMi (x : RegIdx) : Statement (.ldVxMi x) := legal_misc rfl

end Sys2Proof.Laws.EncodesLegal
end

