-- ==== Sys2Proof/Laws/Step.lean ====
section
/-! SUPPORT. What a STEP can do, said once (spec/60_exceptions.md R170): one lemma for each line of the rule, and the
inversion of a next state. -/

namespace Sys2Proof.Machine

/-- Line 1: Held. -/
theorem step_held {s : State} {r : RegIdx} (h : s.await = some r) : step s = .next s := by
  simp [step, stepOnce, h]

/-- Line 2: the fetch's fault. -/
theorem step_fetchFault {s : State} {f : Fault} (h : s.await = none) (hf : s.fetch = .error f) : step s = .fault f := by
  simp [step, stepOnce, h, hf, raise]

/-- Line 3: an illegal word. -/
theorem step_illegal {s : State} {w : Word} {c : IllegalClass} (h : s.await = none) (hf : s.fetch = .ok w)
    (hd : decodeWord w = .error c) : step s = .fault .invalidOpcode := by
  simp [step, stepOnce, h, hf, hd, raise]

/-- Lines 4 and 5: the instruction's meaning. -/
theorem step_decoded {s : State} {w : Word} {i : Instr} (h : s.await = none) (hf : s.fetch = .ok w)
    (hd : decodeWord w = .ok i) : step s = exec i s := by
  simp [step, stepOnce, h, hf, hd]

/-- The four cases of a STEP; every later fact about `step` is a case of this. -/
theorem step_cases (s : State) :
    (∃ r, s.await = some r ∧ step s = .next s) ∨
    (s.await = none ∧ s.fetch = .error .addressOutOfRange ∧ step s = .fault .addressOutOfRange) ∨
    (∃ w c, s.await = none ∧ s.fetch = .ok w ∧ decodeWord w = .error c ∧ step s = .fault .invalidOpcode) ∨
    (∃ w i, s.await = none ∧ s.fetch = .ok w ∧ decodeWord w = .ok i ∧ step s = exec i s) := by
  cases ha : s.await with
  | some r => exact .inl ⟨r, rfl, step_held ha⟩
  | none =>
    cases hf : s.fetch with
    | error f =>
      obtain ⟨-, rfl⟩ := State.fetch_eq_error.mp hf
      exact .inr (.inl ⟨rfl, rfl, step_fetchFault ha hf⟩)
    | ok w =>
      cases hd : decodeWord w with
      | error c => exact .inr (.inr (.inl ⟨w, c, rfl, rfl, hd, step_illegal ha hf hd⟩))
      | ok i => exact .inr (.inr (.inr ⟨w, i, rfl, rfl, hd, step_decoded ha hf hd⟩))

/-- A STEP that ends in a next state was Held, or ran the instruction it fetched from a PC of at most 0xFFE. -/
theorem step_eq_next {s t : State} (h : step s = .next t) :
    ((∃ r, s.await = some r) ∧ t = s) ∨
    (∃ w i, s.await = none ∧ s.pc.toNat ≤ 0xFFE ∧ s.fetch = .ok w ∧ decodeWord w = .ok i ∧ exec i s = .next t) := by
  obtain ⟨r, hr, hs⟩ | ⟨-, -, hs⟩ | ⟨w, c, -, -, -, hs⟩ | ⟨w, i, ha, hf, hd, hs⟩ := step_cases s
  · rw [hs] at h; cases h; exact .inl ⟨⟨r, hr⟩, rfl⟩
  · rw [hs] at h; cases h
  · rw [hs] at h; cases h
  · have hp := (State.fetch_eq_ok.mp hf).1
    exact .inr ⟨w, i, ha, by simp only [memSize] at hp; omega, hf, hd, hs ▸ h⟩

/-- The address a placed word goes to can be fetched from. -/
theorem placeAddress_le (s : State) : placeAddress s ≤ 0xFFE := by
  unfold placeAddress programBase
  split <;> omega

/-- A placed word is what the next fetch answers, and no wait is pending. -/
theorem fetch_placeWord (s : State) (w : Word) : (placeWord s w).fetch = .ok w ∧ (placeWord s w).await = none := by
  have hle := placeAddress_le s
  have hpc : (placeWord s w).pc.toNat = placeAddress s := by
    simp only [placeWord, BitVec.toNat_ofNat]
    omega
  refine ⟨?_, rfl⟩
  rw [State.fetch_eq_ok, hpc]
  refine ⟨by simp only [memSize]; omega, ?_⟩
  have h0 : (placeWord s w).mem = s.mem.writeBytes (placeAddress s) (bytesOfWord w) := rfl
  rw [h0, Memory.read_writeBytes, Memory.read_writeBytes]
  simp [bytesOfWord, wordOfBytes_of_word]

end Sys2Proof.Machine
end

