-- ==== Sys2Proof/Tests/Slice0.lean ====
section
/-! SUPPORT. Tests. Every expected result is a vector of spec/95_test_vectors.md, named in the test's comment by its
identifier there (Part 2 for decoding, F, A, M, D, K and L for single steps), or is worked out by hand from the rule the
comment cites. Then, for each statement of Certificates/Slice0/Obligations.lean that has hypotheses, a witness that
meets them. -/

open Sys2Proof Sys2Proof.Machine

/-! ## Words that are not well formed, one for each class of R89, refused by the check and by the decoder -/

theorem test_illformed_zero : illegalClass 0x0123#16 = some .zeroGroup ∧ ¬ WellFormedWord 0x00E1#16 := by decide
theorem test_illformed_five : illegalClass 0x5001#16 = some .fiveGroup ∧ ¬ WellFormedWord 0x512F#16 := by decide
theorem test_illformed_eight : illegalClass 0x8008#16 = some .eightGroup ∧ ¬ WellFormedWord 0x812F#16 := by decide
theorem test_illformed_nine : illegalClass 0x9121#16 = some .nineGroup ∧ ¬ WellFormedWord 0x900F#16 := by decide
theorem test_illformed_key : illegalClass 0xE09D#16 = some .keyGroup ∧ ¬ WellFormedWord 0xEF9F#16 := by decide
theorem test_illformed_misc : illegalClass 0xF075#16 = some .miscGroup ∧ ¬ WellFormedWord 0xFFFF#16 := by decide

/-- Part 2, the list of illegal words: the decoder rejects each by its class. -/
theorem test_decode_rejects :
    [0x0000#16, 0x00EF#16, 0x0FFF#16].map decodeWord = List.replicate 3 (.error .zeroGroup) ∧
    [0x8129#16, 0x812B#16, 0x812D#16].map decodeWord = List.replicate 3 (.error .eightGroup) ∧
    [0xE000#16, 0xE0A0#16, 0xE0A2#16].map decodeWord = List.replicate 3 (.error .keyGroup) ∧
    [0xF000#16, 0xF008#16, 0xF056#16, 0xF066#16, 0xF085#16].map decodeWord = List.replicate 5 (.error .miscGroup) := by
  decide

/-- R80: no instruction is shorter than two bytes. -/
theorem test_decode_truncated : decodeBytes [] = .error .truncated ∧ decodeBytes [0x60#8] = .error .truncated := by decide

/-! ## Decoding (Part 2): each word written out from the pattern of the instruction -/

theorem test_decode_cls : decodeBytes [0x00#8, 0xE0#8] = .ok (.cls, []) := rfl
theorem test_decode_ret : decodeBytes [0x00#8, 0xEE#8] = .ok (.ret, []) := rfl
theorem test_decode_jp : decodeBytes [0x1F#8, 0xFF#8] = .ok (.jp 0xFFF#12, []) := rfl
theorem test_decode_call : decodeBytes [0x2A#8, 0xBC#8] = .ok (.call 0xABC#12, []) := rfl
theorem test_decode_seVxKk : decodeBytes [0x3A#8, 0x7F#8] = .ok (.seVxKk 10 0x7F#8, []) := rfl
theorem test_decode_sneVxKk : decodeBytes [0x4F#8, 0x00#8] = .ok (.sneVxKk 15 0x00#8, []) := rfl
theorem test_decode_seVxVy : decodeBytes [0x5A#8, 0xB0#8] = .ok (.seVxVy 10 11, []) := rfl
theorem test_decode_ldVxKk : decodeBytes [0x6C#8, 0x42#8] = .ok (.ldVxKk 12 0x42#8, []) := rfl
theorem test_decode_addVxKk : decodeBytes [0x70#8, 0x01#8] = .ok (.addVxKk 0 0x01#8, []) := rfl
theorem test_decode_ldVxVy : decodeBytes [0x81#8, 0x20#8] = .ok (.ldVxVy 1 2, []) := rfl
theorem test_decode_orVxVy : decodeBytes [0x81#8, 0x21#8] = .ok (.orVxVy 1 2, []) := rfl
theorem test_decode_andVxVy : decodeBytes [0x81#8, 0x22#8] = .ok (.andVxVy 1 2, []) := rfl
theorem test_decode_xorVxVy : decodeBytes [0x81#8, 0x23#8] = .ok (.xorVxVy 1 2, []) := rfl
theorem test_decode_addVxVy : decodeBytes [0x81#8, 0x24#8] = .ok (.addVxVy 1 2, []) := rfl
theorem test_decode_subVxVy : decodeBytes [0x81#8, 0x25#8] = .ok (.subVxVy 1 2, []) := rfl
theorem test_decode_shrVx : decodeBytes [0x83#8, 0xF6#8] = .ok (.shrVx 3 15, []) := rfl
theorem test_decode_subnVxVy : decodeBytes [0x81#8, 0x27#8] = .ok (.subnVxVy 1 2, []) := rfl
theorem test_decode_shlVx : decodeBytes [0x81#8, 0x2E#8] = .ok (.shlVx 1 2, []) := rfl
theorem test_decode_sneVxVy : decodeBytes [0x91#8, 0x20#8] = .ok (.sneVxVy 1 2, []) := rfl
theorem test_decode_ldINnn : decodeBytes [0xA1#8, 0x23#8] = .ok (.ldINnn 0x123#12, []) := rfl
theorem test_decode_jpV0Nnn : decodeBytes [0xB3#8, 0x00#8] = .ok (.jpV0Nnn 0x300#12, []) := rfl
theorem test_decode_rndVxKk : decodeBytes [0xC1#8, 0x0F#8] = .ok (.rndVxKk 1 0x0F#8, []) := rfl
theorem test_decode_drwVxVyN : decodeBytes [0xD1#8, 0x25#8] = .ok (.drwVxVyN 1 2 5#4, []) := rfl
theorem test_decode_skpVx : decodeBytes [0xE3#8, 0x9E#8] = .ok (.skpVx 3, []) := rfl
theorem test_decode_sknpVx : decodeBytes [0xE3#8, 0xA1#8] = .ok (.sknpVx 3, []) := rfl
theorem test_decode_ldVxDt : decodeBytes [0xF2#8, 0x07#8] = .ok (.ldVxDt 2, []) := rfl
theorem test_decode_ldVxK : decodeBytes [0xF3#8, 0x0A#8] = .ok (.ldVxK 3, []) := rfl
theorem test_decode_ldDtVx : decodeBytes [0xF0#8, 0x15#8] = .ok (.ldDtVx 0, []) := rfl
theorem test_decode_ldStVx : decodeBytes [0xF1#8, 0x18#8] = .ok (.ldStVx 1, []) := rfl
theorem test_decode_addIVx : decodeBytes [0xF2#8, 0x1E#8] = .ok (.addIVx 2, []) := rfl
theorem test_decode_ldFVx : decodeBytes [0xF0#8, 0x29#8] = .ok (.ldFVx 0, []) := rfl
theorem test_decode_ldBVx : decodeBytes [0xF0#8, 0x33#8] = .ok (.ldBVx 0, []) := rfl
theorem test_decode_ldMiVx : decodeBytes [0xFF#8, 0x55#8] = .ok (.ldMiVx 15, []) := rfl
theorem test_decode_ldVxMi : decodeBytes [0xFF#8, 0x65#8] = .ok (.ldVxMi 15, []) := rfl

/-- The table's numbering: bit 0 is the least significant of the one word (log 20). -/
theorem test_decodeTableWord : decodeTableWord 16 0xD125 = some (.drwVxVyN 1 2 5#4) ∧ decodeTableWord 16 0xFFFF = none := by
  decide

/-! ## One step on a small state -/

/-- The reset state with some registers set. -/
def withRegs (rs : List (RegIdx × Byte)) : State := rs.foldl (fun s p => s.setReg p.1 p.2) State.reset

/-- The next state of an outcome. -/
def nextOf : Result → Option State
  | .next t => some t
  | _ => none

/-- The fault of an outcome. -/
def faultOf : Result → Option Fault
  | .fault f => some f
  | _ => none

/-- One step of a word placed at PC, and a view of the next state. -/
def after {α : Type} (s : State) (w : Nat) (view : State → α) : Option α := (nextOf (step (s.withFetchWord 16 w))).map view

/-- One step of a word placed at PC: its fault. -/
def faultAfter (s : State) (w : Nat) : Option Fault := faultOf (step (s.withFetchWord 16 w))

/-- Vx, VF and PC. -/
def regFlagPc (x : RegIdx) (t : State) : Byte × Byte × Word := (t.reg x, t.reg vf, t.pc)

/-- The reset state at another PC. -/
def atPc (pc : Word) : State := State.reset.setPc pc

/-- A state with a call stack of some depth and one slot filled. -/
def withStack (sp : Fin 17) (j : Fin 16) (w : Word) : State :=
  { State.reset with sp := sp, stack := State.reset.stack.set j.val w }

/-- A state with I set and bytes in memory at I. -/
def withBytes (s : State) (i : Word) (bs : List Byte) : State := { s with i := i, mem := s.mem.writeBytes i.toNat bs }

/-- A state with one more lit pixel. -/
def lit (s : State) (row col : Nat) : State := s.setDisplay (s.fb.flip row col)

/-! ### Control transfer -/

/-- F9, F11. -/
theorem test_ret : after (withStack 1 0 0x0206) 0x00EE (fun t => (t.pc, t.sp, t.stack[0])) = some (0x0206, 0, 0x0206) ∧
    after (withStack 16 15 0x0ABC) 0x00EE (fun t => (t.pc, t.sp)) = some (0x0ABC, 15) := by decide
/-- F10. -/
theorem test_ret_underflow : faultAfter State.reset 0x00EE = some .stackUnderflow := by decide
/-- F1, F4. -/
theorem test_jp : after (atPc 0x208) 0x1204 State.pc = some 0x0204 ∧ after State.reset 0x1203 State.pc = some 0x0203 := by
  decide
/-- F5, F6. -/
theorem test_call : after (atPc 0x204) 0x220C (fun t => (t.stack[0], t.sp, t.pc)) = some (0x0206, 1, 0x020C) ∧
    after ((withStack 15 0 0).setPc 0x300) 0x2400 (fun t => (t.stack[15], t.sp, t.pc)) = some (0x0302, 16, 0x0400) := by
  decide
/-- F7. -/
theorem test_call_overflow : faultAfter ((withStack 16 0 0).setPc 0x300) 0x2400 = some .stackOverflow := by decide
/-- F13, F14. -/
theorem test_jpV0Nnn : after (withRegs [(0, 0xFF)]) 0xBFFF State.pc = some 0x10FE ∧
    after (withRegs [(3, 0x50)]) 0xB300 State.pc = some 0x0300 := by decide
/-- F15, F16. -/
theorem test_seVxKk : after (atPc 0x206) 0x3000 State.pc = some 0x020A ∧
    after ((withRegs [(0, 0x02)]).setPc 0x206) 0x3000 State.pc = some 0x0208 := by decide
/-- F18, F19. -/
theorem test_sneVxKk : after ((withRegs [(1, 0x05)]).setPc 0x300) 0x4105 State.pc = some 0x0302 ∧
    after ((withRegs [(1, 0x06)]).setPc 0x300) 0x4105 State.pc = some 0x0304 := by decide
/-- F20, F21. -/
theorem test_seVxVy : after (withRegs [(1, 7), (2, 7)]) 0x5120 State.pc = some 0x0204 ∧
    after (withRegs [(1, 7), (2, 8)]) 0x5120 State.pc = some 0x0202 := by decide
/-- F23, F24. -/
theorem test_sneVxVy : after (withRegs [(1, 7), (2, 8)]) 0x9120 State.pc = some 0x0204 ∧
    after (withRegs [(1, 7), (2, 7)]) 0x9120 State.pc = some 0x0202 := by decide

/-! ### Register loads and the ALU -/

/-- A2. -/
theorem test_ldVxKk : after State.reset 0x6FAB (regFlagPc 15) = some (0xAB, 0xAB, 0x0202) := by decide
/-- A4, A6. -/
theorem test_addVxKk : after (withRegs [(0, 0xFF)]) 0x7001 (regFlagPc 0) = some (0x00, 0x00, 0x0202) ∧
    after (withRegs [(15, 0xFE)]) 0x7F03 (regFlagPc 15) = some (0x01, 0x01, 0x0202) := by decide
/-- A7. -/
theorem test_ldVxVy : after (withRegs [(2, 0x9C)]) 0x8120 (regFlagPc 1) = some (0x9C, 0x00, 0x0202) := by decide
/-- A8. -/
theorem test_orVxVy : after (withRegs [(0, 0xF0), (1, 0x0F), (15, 1)]) 0x8011 (regFlagPc 0) = some (0xFF, 1, 0x0202) := by
  decide
/-- A9. -/
theorem test_andVxVy : after (withRegs [(0, 0xF3), (1, 0x3C), (15, 1)]) 0x8012 (regFlagPc 0) = some (0x30, 1, 0x0202) := by
  decide
/-- A10. -/
theorem test_xorVxVy : after (withRegs [(0, 0x7A), (1, 0x70), (15, 1)]) 0x8013 (regFlagPc 0) = some (0x0A, 1, 0x0202) := by
  decide
/-- A12 (S6), A18. -/
theorem test_addVxVy : after (withRegs [(0, 0xFA), (1, 0x0A)]) 0x8014 (regFlagPc 0) = some (0x04, 1, 0x0202) ∧
    after (withRegs [(0, 0x05), (15, 0x03)]) 0x80F4 (regFlagPc 0) = some (0x08, 0, 0x0202) := by decide
/-- A19, A20: VF as the destination. -/
theorem test_addVxVy_flag_wins : after (withRegs [(15, 0xF0), (1, 0x20)]) 0x8F14 (regFlagPc 15) = some (1, 1, 0x0202) ∧
    after (withRegs [(15, 0x10), (1, 0x20)]) 0x8F14 (regFlagPc 15) = some (0, 0, 0x0202) := by decide
/-- A21, A23. -/
theorem test_subVxVy : after (withRegs [(0, 0x04), (1, 0x0A)]) 0x8015 (regFlagPc 0) = some (0xFA, 0, 0x0202) ∧
    after (withRegs [(0, 0x33), (1, 0x33)]) 0x8015 (regFlagPc 0) = some (0x00, 1, 0x0202) := by decide
/-- A29, A30. -/
theorem test_shrVx : after (withRegs [(0, 0xFF)]) 0x8006 (regFlagPc 0) = some (0x7F, 1, 0x0202) ∧
    after (withRegs [(0, 0x80), (1, 0x03)]) 0x8016 (regFlagPc 0) = some (0x40, 0, 0x0202) := by decide
/-- A33, A34. -/
theorem test_subnVxVy : after (withRegs [(1, 0x0A), (0, 0x7A)]) 0x8107 (regFlagPc 1) = some (0x70, 1, 0x0202) ∧
    after (withRegs [(1, 0x01), (0, 0x00)]) 0x8107 (regFlagPc 1) = some (0xFF, 0, 0x0202) := by decide
/-- A36, A40. -/
theorem test_shlVx : after (withRegs [(0, 0xFA)]) 0x800E (regFlagPc 0) = some (0xF4, 1, 0x0202) ∧
    after (withRegs [(15, 0x81)]) 0x8F0E (regFlagPc 15) = some (0x01, 1, 0x0202) := by decide
/-- A41, with the draw given. -/
theorem test_rndVxKk : (nextOf (randomAnd 0xA7 1 0x0F State.reset)).map (regFlagPc 1) = some (0x07, 0x00, 0x0202) := by decide

/-! ### Index register, loads and stores -/

/-- M2. -/
theorem test_ldINnn : after State.reset 0xAFFF State.i = some 0x0FFF := by decide
/-- M4, M5. -/
theorem test_addIVx : after ((withRegs [(2, 0x01)]).setIndex 0x0FFF) 0xF21E (fun t => (t.i, t.reg vf)) = some (0x1000, 0) ∧
    after ((withRegs [(2, 0x02)]).setIndex 0xFFFF) 0xF21E State.i = some 0x0001 := by decide
/-- M6, M9. -/
theorem test_ldFVx : after (withRegs [(0, 0x0A)]) 0xF029 State.i = some 0x0032 ∧
    after (withRegs [(0, 0x1F)]) 0xF029 State.i = some 0x004B := by decide
/-- M10, M13. -/
theorem test_ldBVx : after ((withRegs [(0, 254)]).setIndex 0x300) 0xF033 (fun t => t.mem.readBytes 0x300 3) = some [2, 5, 4] ∧
    after ((withRegs [(0, 9)]).setIndex 0xFFD) 0xF033 (fun t => t.mem.readBytes 0xFFD 3) = some [0, 0, 9] := by decide
/-- M14, M15. -/
theorem test_ldBVx_fault : faultAfter (State.reset.setIndex 0xFFE) 0xF033 = some .addressOutOfRange ∧
    faultAfter (State.reset.setIndex 0x04F) 0xF033 = some .addressOutOfRange := by decide
/-- M17, M20. -/
theorem test_ldMiVx :
    after ((withRegs [(0, 0xAA), (1, 0xBB)]).setIndex 0x400) 0xF155 (fun t => (t.mem.readBytes 0x3FF 4, t.i)) =
      some ([0, 0xAA, 0xBB, 0], 0x400) ∧
    after ((withRegs [(0, 0x77)]).setIndex 0xFFF) 0xF055 (fun t => t.mem.read 0xFFF) = some 0x77 := by decide
/-- M19, M22. -/
theorem test_ldMiVx_fault : faultAfter (State.reset.setIndex 0xFF1) 0xFF55 = some .addressOutOfRange ∧
    faultAfter (State.reset.setIndex 0x04B) 0xFF55 = some .addressOutOfRange := by decide
/-- M23, M24. -/
theorem test_ldVxMi :
    after (withBytes State.reset 0x300 [2, 5, 4]) 0xF265 (fun t => (t.reg 0, t.reg 1, t.reg 2, t.reg 3, t.i)) =
      some (2, 5, 4, 0, 0x300) ∧
    after State.reset 0xF465 (fun t => (t.reg 0, t.reg 1, t.reg 4, t.reg 5)) = some (0xF0, 0x90, 0xF0, 0x00) := by decide
/-- M25, M26. -/
theorem test_ldVxMi_edge : faultAfter (State.reset.setIndex 0xFF1) 0xFF65 = some .addressOutOfRange ∧
    after (withBytes (State.reset.setIndex 0) 0xFF0 (List.replicate 15 0 ++ [1])) 0xFF65 (fun t => t.reg 15) = some 0x01 := by
  decide

/-! ### Display -/

/-- D1. -/
theorem test_cls : after (lit (withRegs [(15, 1)]) 5 6) 0x00E0 (fun t => (t.fb.pixel 5 6, t.reg vf, t.pc)) =
    some (false, 1, 0x0202) := by decide
/-- D4, D10: wraparound; one pixel flipped on and one off. -/
theorem test_drw :
    after (withBytes (withRegs [(0, 60)]) 0x300 [0xFF]) 0xD011
      (fun t => ([59, 60, 63, 0, 3, 4].map (t.fb.pixel 0), t.reg vf)) = some ([false, true, true, true, true, false], 0) ∧
    after (withBytes (lit State.reset 0 1) 0x300 [0xC0]) 0xD011
      (fun t => (t.fb.pixel 0 0, t.fb.pixel 0 1, t.reg vf, t.pc)) = some (true, false, 1, 0x0202) := by decide
/-- D11, D13, D14. -/
theorem test_drw_edges :
    after ((withRegs [(15, 1)]).setIndex 0x1234) 0xD010 (fun t => t.reg vf) = some 0 ∧
    faultAfter (State.reset.setIndex 0xFFF) 0xD012 = some .addressOutOfRange ∧
    after (withBytes (withRegs [(15, 3), (1, 2)]) 0x300 [0x80]) 0xDF11 (fun t => (t.fb.pixel 2 3, t.reg vf)) =
      some (true, 0) := by decide

/-! ### Keypad and timers -/

/-- K1 to K3 (the key levels given). -/
theorem test_skpVx :
    (nextOf (skipOnKey 0x0020 true 3 ((withRegs [(3, 0x05)]).setPc 0x220))).map State.pc = some 0x0224 ∧
    (nextOf (skipOnKey 0x0000 true 3 ((withRegs [(3, 0x05)]).setPc 0x220))).map State.pc = some 0x0222 ∧
    (nextOf (skipOnKey 0x0020 true 3 ((withRegs [(3, 0x15)]).setPc 0x220))).map State.pc = some 0x0224 := by decide
/-- K4, K5 (the key levels given). -/
theorem test_sknpVx :
    (nextOf (skipOnKey 0x0020 false 3 ((withRegs [(3, 0x05)]).setPc 0x220))).map State.pc = some 0x0222 ∧
    (nextOf (skipOnKey 0xFFDF false 3 ((withRegs [(3, 0x05)]).setPc 0x220))).map State.pc = some 0x0224 := by decide
/-- K7. -/
theorem test_ldVxK : after ((withRegs [(3, 0x99)]).setPc 0x230) 0xF30A (fun t => (t.await, t.pc, t.reg 3)) =
    some (some 3, 0x0230, 0x99) := by decide
/-- K10, K11, K12. -/
theorem test_keyDeliver :
    ((keyDeliver 0xB (((withRegs [(3, 0x99)]).setPc 0x230).setAwait (some 3))).reg 3,
      (keyDeliver 0xB ((atPc 0x230).setAwait (some 3))).pc,
      (keyDeliver 0xB ((atPc 0x230).setAwait (some 3))).await) = (0x0B, 0x0232, none) ∧
    (keyDeliver 4 (atPc 0x230)).pc = 0x0230 ∧
    (keyDeliver 0 ((withRegs [(15, 7)]).setAwait (some 15))).reg vf = 0x00 := by decide
/-- K14. -/
theorem test_ldVxDt : after (State.reset.setDelay 0x1E) 0xF207 (fun t => (t.reg 2, t.dt)) = some (0x1E, 0x1E) := by decide
/-- K15. -/
theorem test_ldDtVx : after (withRegs [(0, 30)]) 0xF015 (fun t => (t.dt, t.st)) = some (30, 0) := by decide
/-- K16. -/
theorem test_ldStVx : after (withRegs [(1, 8)]) 0xF118 (fun t => (t.dt, t.st)) = some (0, 8) := by decide
/-- K17, K18. -/
theorem test_tick : (tick (State.reset.setDelay 1)).dt = 0 ∧ (tick (State.reset.setDelay 1)).st = 0 ∧
    (tick (State.reset.setSound 0xFF)).st = 0xFE := by decide

/-! ### The step, memory primitives, load and reset -/

/-- S9, L10, L11, L15. -/
theorem test_step : faultAfter State.reset 0xFFFF = some .invalidOpcode ∧ after (atPc 0xFFE) 0x1200 State.pc = some 0x0200 ∧
    faultOf (step (atPc 0xFFF)) = some .addressOutOfRange ∧ faultOf (step State.reset) = some .invalidOpcode := by decide
/-- L16, K8: Held comes first. -/
theorem test_held : (perform .step ((atPc 0xFFF).setAwait (some 0))).1 = .held := rfl
/-- R172, the table's codes, and 0 for no fault. -/
theorem test_codes :
    [Fault.addressOutOfRange, .programTooLarge, .stackOverflow, .stackUnderflow, .invalidOpcode].map
      (fun f => outcomeCode (.fault f)) = [some 1, some 2, some 3, some 4, some 5] ∧
    [Reply.ok, .okByte 7, .held].map outcomeCode = [some 0, some 0, some 0] := by decide
/-- L1 to L4. -/
theorem test_memory_port : (perform (.memRead 0xFFF) State.reset).1 = .okByte 0x00 ∧
    (perform (.memRead 0x1000) State.reset).1 = .fault .addressOutOfRange ∧
    (perform (.memWrite 0x1000 1) State.reset).1 = .fault .addressOutOfRange ∧
    (perform (.memWrite 0x000 0x55) State.reset).2.mem.readBytes 0 2 = [0x55, 0x90] := by decide
/-- L6, L9. -/
theorem test_loadProgram :
    (performAll [.loadProgram [0xAA, 0xBB, 0xCC, 0xDD], .loadProgram [0x11, 0x22]] State.reset).mem.readBytes 0x200 5 =
      [0x11, 0x22, 0xCC, 0xDD, 0x00] := by decide
/-- L14. -/
theorem test_reset :
    let t := resetCore (lit (withBytes ((withStack 3 0 5).setReg 5 9) 0x300 [0x77]) 1 1)
    (t.reg 5, t.sp, t.stack[0], t.i, t.fb.pixel 1 1, t.pc, t.mem.read 0x300) = (0, 0, 0, 0, false, 0x0200, 0x77) := by decide

/-! ## Witnesses: states and operands that meet the hypotheses of the statements -/

/-- A word placed at PC, as the host places one. -/
def placed (s : State) (w : Nat) : State := s.withFetchWord 16 w

/-- A pending key wait at its own instruction, Fx0A with x = 3 at 0x200. -/
def waiting : State := (placed State.reset 0xF30A).setAwait (some 3)

theorem witness_EncodeAfterDecode : decodeWord 0x8F6E#16 = .ok (.shlVx 15 6) := rfl

theorem witness_StepRunsTheDecodedInstruction : ∃ (s : State) (hi lo : Byte) (i : Instr) (t : State),
    s.await = none ∧ s.pc.toNat = 0xFFE ∧ s.mem.read s.pc.toNat = hi ∧ s.mem.read (s.pc.toNat + 1) = lo ∧
    decodeWord (wordOfBytes hi lo) = .ok i ∧ exec i s = .next t :=
  ⟨placed (atPc 0xFFE) 0x6001, 0x60, 0x01, .ldVxKk 0 0x01, _, rfl, rfl, rfl, rfl, rfl, rfl⟩

theorem witness_KeyWaitHoldsTheStep : waiting.await = some 3 := rfl

theorem witness_FetchReadsTwoBytesUpToFFE : (atPc 0xFFE).pc.toNat ≤ 0xFFE ∧ 0xFFF ≤ (atPc 0xFFF).pc.toNat ∧
    (atPc 0xFFF).await = none := by decide

theorem witness_IllegalWordRaisesInvalidOpcode : ∃ (s : State) (w : Word),
    s.await = none ∧ s.fetch = .ok w ∧ ¬ WellFormedWord w :=
  ⟨placed State.reset 0x00E1, 0x00E1, rfl, rfl, by decide⟩

theorem witness_FaultChangesNothing :
    (perform .step State.reset).1 = .fault .invalidOpcode ∧ (perform .step (placed State.reset 0x00EE)).1 = .fault .stackUnderflow ∧
    (perform (.memRead 0x1000) State.reset).1 = .fault .addressOutOfRange ∧
    (perform (.memWrite 0x1000 0) State.reset).1 = .fault .addressOutOfRange := ⟨rfl, rfl, rfl, rfl⟩

/-- The invariant at both bounds of PC and of a stack entry, and a step from there. -/
theorem witness_EveryStepKeepsTheInvariant :
    (∃ s t : State, Invariant s ∧ step s = .next t ∧ t.pc = 0x10FE) ∧
    (∃ s t : State, Invariant s ∧ step s = .next t ∧ s.pc = 0xFFE ∧ t.stack[15] = 0x1000) ∧
    (∃ s t : State, Invariant s ∧ s.await.isSome = true ∧ step s = .next t) :=
  ⟨⟨placed (withRegs [(0, 0xFF)]) 0xBFFF, _, by decide, rfl, rfl⟩,
   ⟨placed ((withStack 15 0 0x1000).setPc 0xFFE) 0x2200, _, by decide, rfl, rfl, rfl⟩,
   ⟨waiting, waiting, by decide, by decide, rfl⟩⟩

theorem witness_EveryRunOfOperationsKeepsTheInvariant : Invariant (atPc 0x10FE) ∧ Invariant waiting := by decide

theorem witness_KeyWaitStaysAtItsInstruction : WaitAtItsInstruction waiting ∧ waiting.await = some 3 ∧
    step waiting = .next waiting := by
  refine ⟨fun r h => ⟨0xF30A, rfl, ?_⟩, rfl, rfl⟩
  cases h
  rfl

theorem witness_NoStepWritesTheGlyphRegion : ∃ (s t : State) (a : Nat), step s = .next t ∧ a < 0x050 ∧ 0x04F ≤ a :=
  ⟨placed (State.reset.setIndex 0x050) 0xF055, _, 0x04F, rfl, by decide⟩

theorem witness_OnlyFx33AndFx55WriteMemory : ∃ (i : Instr) (s t : State),
    exec i s = .next t ∧ (∀ x, i ≠ .ldBVx x) ∧ ∀ x, i ≠ .ldMiVx x :=
  ⟨.ldVxMi 15, State.reset, _, rfl, fun _ h => (by cases h), fun _ h => (by cases h)⟩

theorem witness_VfIsChangedOnlyByItsWriters : (∃ s t : State, exec (.addVxKk 14 1) s = .next t) ∧
    ¬ MayWriteVf (.addVxKk 14 1) ∧ (∃ s t : State, exec (.ldVxMi 14) s = .next t) ∧ ¬ MayWriteVf (.ldVxMi 14) :=
  ⟨⟨State.reset, _, rfl⟩, show ¬ (14 : RegIdx) = vf by decide, ⟨State.reset, _, rfl⟩, show ¬ (14 : RegIdx) = vf by decide⟩

/-- One instruction for each clause that changes the register of the clause. -/
theorem witness_EachSpecialRegisterHasItsWriters :
    (∃ s t : State, exec (.ldINnn 1) s = .next t ∧ t.i ≠ s.i) ∧
    (∃ s t : State, exec (.ldDtVx 0) s = .next t ∧ t.dt ≠ s.dt) ∧
    (∃ s t : State, exec (.ldStVx 0) s = .next t ∧ t.st ≠ s.st) ∧
    (∃ s t : State, exec .cls s = .next t ∧ t.fb.pixel 0 0 ≠ s.fb.pixel 0 0) ∧
    (∃ s t : State, exec (.call 1) s = .next t ∧ t.sp ≠ s.sp) ∧
    (∃ s t : State, exec (.ldVxK 15) s = .next t ∧ t.await ≠ s.await) :=
  ⟨⟨State.reset, _, rfl, by decide⟩, ⟨withRegs [(0, 1)], _, rfl, by decide⟩, ⟨withRegs [(0, 1)], _, rfl, by decide⟩,
   ⟨lit State.reset 0 0, _, rfl, by decide⟩, ⟨State.reset, _, rfl, by decide⟩, ⟨State.reset, _, rfl, by decide⟩⟩

theorem witness_OnlyTransfersChangeTheParityOfPc : (∃ s t : State, exec (.seVxVy 0 1) s = .next t ∧ s.pc = 0x0201) ∧
    ¬ Transfers (.seVxVy 0 1) :=
  ⟨⟨atPc 0x0201, _, rfl, rfl⟩, not_false⟩

theorem witness_ReturnPopsTheStackIntoPc : State.reset.sp.val = 0 ∧ (withStack 1 0 0).sp.val = (0 : Fin 16).val + 1 ∧
    (withStack 16 0 0).sp.val = (15 : Fin 16).val + 1 := by decide

theorem witness_CallPushesTheReturnAddress : (withStack 16 0 0).sp.val = 16 ∧ (withStack 15 0 0).sp.val = (15 : Fin 16).val ∧
    State.reset.sp.val = (0 : Fin 16).val := by decide

theorem witness_SkipsOnAnImmediate : State.reset.reg 15 = 0x00 ∧ State.reset.reg 15 ≠ 0x01 := by decide

theorem witness_SkipsOnTwoRegisters : (withRegs [(0, 1)]).reg 14 = (withRegs [(0, 1)]).reg 15 ∧
    (withRegs [(0, 1)]).reg 0 ≠ (withRegs [(0, 1)]).reg 15 := by decide

theorem witness_ImmediateLoadAndAdd : (14 : RegIdx) ≠ vf := by decide

theorem witness_AssignOrAndXor : (14 : RegIdx) ≠ vf := by decide

theorem witness_TimerTransfersCopyAByte : (14 : RegIdx) ≠ vf := by decide

theorem witness_CallThenReturnComesBack : State.reset.sp.val = (0 : Fin 16).val ∧
    (withStack 15 0 0).sp.val = (15 : Fin 16).val := by decide

theorem witness_CallsSucceedUpToDepthSixteen :
    State.reset.sp.val + (List.replicate 16 (0x200 : Addr12)).length ≤ 16 ∧
    16 < State.reset.sp.val + (List.replicate 17 (0x200 : Addr12)).length := by decide

/-- The carry at its boundary: 0x37 + 0xC8 = 255 and 0xFF + 0x01 = 256 (A15, A13). -/
theorem witness_AddSetsSumAndCarry : (0 : RegIdx) ≠ vf ∧
    ((withRegs [(0, 0xFF), (1, 0x01)]).reg 0).toNat + ((withRegs [(0, 0xFF), (1, 0x01)]).reg 1).toNat > 255 ∧
    ((withRegs [(0, 0xC8), (1, 0x37)]).reg 0).toNat + ((withRegs [(0, 0xC8), (1, 0x37)]).reg 1).toNat ≤ 255 := by decide

/-- The borrow at its boundary: equal operands, and one below (A23, A24); also for SubnSetsReverseDifference, with the
registers exchanged, and for the shifts, whose one hypothesis is x ≠ vf. -/
theorem witness_SubSetsDifferenceAndNoBorrow : (0 : RegIdx) ≠ vf ∧
    ((withRegs [(0, 0x33), (1, 0x33)]).reg 1).toNat ≤ ((withRegs [(0, 0x33), (1, 0x33)]).reg 0).toNat ∧
    ((withRegs [(1, 0x01)]).reg 0).toNat < ((withRegs [(1, 0x01)]).reg 1).toNat := by decide

theorem witness_SubnSetsReverseDifference : (0 : RegIdx) ≠ vf ∧
    ((withRegs [(0, 0x44), (1, 0x44)]).reg 0).toNat ≤ ((withRegs [(0, 0x44), (1, 0x44)]).reg 1).toNat ∧
    ((withRegs [(0, 0x01)]).reg 1).toNat < ((withRegs [(0, 0x01)]).reg 0).toNat := by decide

theorem witness_ShiftRightHalvesAndEvicts : (14 : RegIdx) ≠ vf := by decide

theorem witness_ShiftLeftDoublesAndEvicts : (14 : RegIdx) ≠ vf := by decide

/-- The four boundary values of I. -/
theorem witness_BcdStoresThreeDigits :
    (0x050 ≤ (State.reset.setIndex 0x050).base ∧ (State.reset.setIndex 0x050).base + 2 < 4096) ∧
    (0x050 ≤ (State.reset.setIndex 0xFFD).base ∧ (State.reset.setIndex 0xFFD).base + 2 < 4096) ∧
    (State.reset.setIndex 0x04F).base ≤ 0x04F ∧ 4096 ≤ (State.reset.setIndex 0xFFE).base + 2 := by decide

theorem witness_BlockStoreWritesV0ToVx :
    (0x050 ≤ (State.reset.setIndex 0x050).base ∧ (State.reset.setIndex 0x050).base + (0 : RegIdx).val < 4096) ∧
    (0x050 ≤ (State.reset.setIndex 0xFF0).base ∧ (State.reset.setIndex 0xFF0).base + (15 : RegIdx).val < 4096) ∧
    (0 : RegIdx).val ≤ (15 : RegIdx).val ∧
    (State.reset.setIndex 0x04F).base ≤ 0x04F ∧ 4096 ≤ (State.reset.setIndex 0xFF1).base + (15 : RegIdx).val := by decide

theorem witness_BlockLoadReadsV0ToVx :
    (State.reset.setIndex 0xFF0).base + (15 : RegIdx).val < 4096 ∧ (State.reset.setIndex 0xFFF).base + (0 : RegIdx).val < 4096 ∧
    (0 : RegIdx) ≠ vf ∧ 4096 ≤ (State.reset.setIndex 0xFF1).base + (15 : RegIdx).val := by decide

theorem witness_BlockStoreThenLoadRestores : ∃ s t u : State,
    exec (.ldMiVx 15) s = .next t ∧ u.mem = t.mem ∧ u.i = s.i ∧ u.reg 0 ≠ s.reg 0 :=
  ⟨(withRegs [(0, 7)]).setIndex 0x300, _, { State.reset with i := 0x300, mem := [(0x300, 7)] }, rfl, rfl, rfl, by decide⟩

theorem witness_MemoryReadAndWritePrimitives : (0xFFF : Nat) < 4096 ∧ (0xFFE : Nat) ≠ 0xFFF ∧ 4096 ≤ (0x1000 : Nat) := by decide

/-- Dxyn with a sprite that ends with memory; with a 1 bit over a lit pixel, and over an unlit one; with no row at all. -/
theorem witness_DrawFlipsExactlyTheCoveredPixels :
    ((State.reset.setIndex 0xFFF).base + (1#4).toNat ≤ 4096 ∧ (0#4).toNat = 0) ∧
    (∃ row col, SpriteCovers 0 1 1#4 (withBytes (lit State.reset 0 0) 0x300 [0x80]) row col ∧
      (withBytes (lit State.reset 0 0) 0x300 [0x80]).fb.pixel row.val col.val = true) ∧
    (¬ ∃ row col, SpriteCovers 0 1 0#4 State.reset row col ∧ State.reset.fb.pixel row.val col.val = true) ∧
    ¬ SpriteCovers 0 1 0#4 State.reset 31 63 := by
  refine ⟨by decide, ⟨0, 0, ⟨0, 0, by decide⟩, by decide⟩, ?_, ?_⟩
  · rintro ⟨row, col, ⟨r, c, hr, -⟩, -⟩
    exact absurd hr (Nat.not_lt_zero r)
  · rintro ⟨r, c, hr, -⟩
    exact absurd hr (Nat.not_lt_zero r)

theorem witness_DrawFaultsOnlyPastTheEnd : 1 ≤ (2#4).toNat ∧ 4096 < (State.reset.setIndex 0xFFF).base + (2#4).toNat ∧
    faultOf (exec (.drwVxVyN 0 1 2#4) (State.reset.setIndex 0xFFF)) = some .addressOutOfRange := by decide

theorem witness_DrawingTwiceRestoresTheDisplay :
    ((0 : RegIdx) ≠ vf ∧ (1 : RegIdx) ≠ vf ∧ (withBytes State.reset 0xFFF [0x01]).base + (1#4).toNat ≤ 4096) ∧
    (∃ row col, SpriteCovers 0 1 1#4 (withBytes State.reset 0xFFF [0x01]) row col ∧
      (withBytes State.reset 0xFFF [0x01]).fb.pixel row.val col.val = false) ∧
    ¬ ∃ row col, SpriteCovers 0 1 0#4 State.reset row col ∧ State.reset.fb.pixel row.val col.val = false := by
  refine ⟨by decide, ⟨0, 7, ⟨0, 7, by decide⟩, by decide⟩, ?_⟩
  rintro ⟨row, col, ⟨r, c, hr, -⟩, -⟩
  exact absurd hr (Nat.not_lt_zero r)

theorem witness_KeyDeliveryEndsTheWait : State.reset.await = none ∧ (State.reset.setAwait (some 15)).await = some 15 := by
  decide

theorem witness_ResetAndPowerOnValues : (0x050 : Nat) ≤ 0x050 ∧ (0x050 : Nat) ≤ 0xFFF := by decide

theorem witness_LoadProgramWritesOrFails : (List.replicate 0xE00 (0x55 : Byte)).length ≤ 0xE00 ∧
    0xDFF < (List.replicate 0xE00 (0x55 : Byte)).length ∧ 0xE00 < (List.replicate 0xE01 (0x55 : Byte)).length := by
  simp only [List.length_replicate]
  decide

theorem witness_FirstFetchIsTheProgramsFirstWord : ([] : List Byte).length + 2 ≤ 0xE00 ∧
    (List.replicate 0xDFE (0x55 : Byte)).length + 2 ≤ 0xE00 := by
  simp only [List.length_replicate]
  decide

theorem witness_JumpToItselfIsAFixedPoint : (placed State.reset 0x1200).await = none ∧
    (placed State.reset 0x1200).pc.toNat = (0x200 : Addr12).toNat ∧
    (placed State.reset 0x1200).fetch = .ok (encode (.jp 0x200)) := ⟨rfl, rfl, rfl⟩

/-- Each instruction the frames name answers a next state (the one hypothesis of each clause). -/
theorem witness_FrameOfControlTransfers :
    (∃ t, exec (.jp 0x200) State.reset = .next t) ∧ (∃ t, exec (.jpV0Nnn 0xFFF) State.reset = .next t) ∧
    (∃ t, exec (.seVxKk 15 0) State.reset = .next t) ∧ (∃ t, exec (.sneVxKk 15 0) State.reset = .next t) ∧
    (∃ t, exec (.seVxVy 0 15) State.reset = .next t) ∧ (∃ t, exec (.sneVxVy 0 15) State.reset = .next t) ∧
    (∃ t, exec .ret (withStack 16 0 0) = .next t) :=
  ⟨⟨_, rfl⟩, ⟨_, rfl⟩, ⟨_, rfl⟩, ⟨_, rfl⟩, ⟨_, rfl⟩, ⟨_, rfl⟩, ⟨_, rfl⟩⟩

theorem witness_FrameOfRegisterWriters :
    (∃ t, exec (.ldVxKk 15 1) State.reset = .next t) ∧ (∃ t, exec (.addVxKk 15 1) State.reset = .next t) ∧
    (∃ t, exec (.ldVxVy 15 0) State.reset = .next t) ∧ (∃ t, exec (.orVxVy 15 0) State.reset = .next t) ∧
    (∃ t, exec (.andVxVy 15 0) State.reset = .next t) ∧ (∃ t, exec (.xorVxVy 15 0) State.reset = .next t) ∧
    (∃ t, exec (.ldVxDt 15) State.reset = .next t) ∧ (∃ t, exec (.ldVxMi 15) State.reset = .next t) :=
  ⟨⟨_, rfl⟩, ⟨_, rfl⟩, ⟨_, rfl⟩, ⟨_, rfl⟩, ⟨_, rfl⟩, ⟨_, rfl⟩, ⟨_, rfl⟩, ⟨_, rfl⟩⟩

theorem witness_FrameOfIndexAndTimerWriters :
    (∃ t, exec (.ldINnn 0xFFF) State.reset = .next t) ∧ (∃ t, exec (.ldDtVx 15) State.reset = .next t) ∧
    (∃ t, exec (.ldStVx 15) State.reset = .next t) := ⟨⟨_, rfl⟩, ⟨_, rfl⟩, ⟨_, rfl⟩⟩
end

section
/-! PROOFS. The memory family (spec/20_memory.md): `MemRead` and `MemWrite` (R50, R51), and the fetch (R53). -/

namespace Sys2Proof.Machine

/-! ## The rules of the two byte primitives and of the operations that call them -/

/-- Read after write for the primitives (R50, R51), the addresses outside memory included. -/
theorem State.memRead_of_memWrite {s t : State} {a : Nat} {x : Byte} (h : s.memWrite a x = .ok t) (c : Nat) :
    t.memRead c = if c = a then .ok x else s.memRead c := by
  obtain ⟨ha, rfl⟩ := State.memWrite_eq_ok.mp h
  by_cases hc : c = a
  · subst c
    simp [State.memRead_eq_ok, Memory.read_write, ha]
  · simp [State.memRead, Memory.read_write, hc]

/-- The host's MemRead has no side effect, whether it answers a byte or a fault (R50). -/
@[simp] theorem perform_memRead_snd (s : State) (a : Nat) : (perform (.memRead a) s).2 = s := by
  cases h : s.memRead a <;> simp [perform, h]

/-- A STEP that ends in a fault is reported by the fault's name, with the state kept (R171, R193). -/
theorem perform_step_of_fault {s : State} {f : Fault} (ha : s.await = none) (hs : step s = .fault f) :
    perform .step s = (.fault f, s) := by
  simp [perform, replyOfStep, ha, hs]

end Sys2Proof.Machine

open Sys2Proof Sys2Proof.Machine

/-! ## The obligations -/

/-- Settles O44: below 4096 by read after write, from 4096 on by the one way each primitive can fault. -/
theorem memoryReadAndWritePrimitives : Obligations.MemoryReadAndWritePrimitives := by
  intro s a b
  refine ⟨fun ha => ?_, fun ha => ⟨State.memRead_eq_error.mpr ⟨ha, rfl⟩, State.memWrite_eq_error.mpr ⟨ha, rfl⟩⟩⟩
  have hw : s.memWrite a b = .ok (s.setMem (s.mem.write a b)) := State.memWrite_eq_ok.mpr ⟨ha, rfl⟩
  refine ⟨State.memRead_eq_ok.mpr ⟨ha, rfl⟩, perform_memRead_snd s a, _, hw, ?_, fun c hc => ?_⟩
  · rw [State.memRead_of_memWrite hw, if_pos rfl]
  · rw [State.memRead_of_memWrite hw, if_neg hc]

/-- Settles O8: the fetch reads the cells at PC and PC + 1, so it succeeds exactly when PC + 1 lies in memory; its fault is
the step's (line 2 of R170). -/
theorem fetchReadsTwoBytesUpToFFE : Obligations.FetchReadsTwoBytesUpToFFE := by
  intro s
  have hfault (hpc : 0xFFF ≤ s.pc.toNat) : s.fetch = .error .addressOutOfRange :=
    State.fetch_eq_error.mpr ⟨Nat.succ_le_succ hpc, rfl⟩
  refine ⟨fun hpc => ⟨_, State.fetch_eq_ok.mpr ⟨?_, rfl⟩, ?_⟩, hfault, fun hpc ha => ?_⟩
  · simp only [memSize]
    omega
  · rw [toNat_wordOfBytes, Nat.mul_comm]
  · have hs := step_fetchFault ha (hfault hpc)
    exact ⟨hs, perform_step_of_fault ha hs⟩
end

section
/-! PROOFS. The exceptions family (spec/60_exceptions.md): the fault that changes nothing (R171), the illegal word (R177)
and `TICK` (R185). -/

namespace Sys2Proof

open Sys2Proof.Laws.EncodesLegal

/-! ## A word that decodes is none of the words of R89: one lemma for each sub-map of the opcode map -/

theorem wellFormed_of_decodeZero {w : Word} {i : Instr} (h : decodeZero w = .ok i) : WellFormedWord w := by
  unfold decodeZero at h
  split at h
  next hw => exact hw ▸ cls
  split at h
  next hw => exact hw ▸ ret
  cases h

theorem wellFormed_of_decodeEight {w : Word} {i : Instr} (h1 : w.toNat / 0x1000 = 8) (h : decodeEight w = .ok i) :
    WellFormedWord w := by
  refine legal_of_eight h1 ?_
  rw [← toNat_nib4]
  unfold decodeEight at h
  split at h
  case h_10 => cases h
  all_goals next hn => simp [hn]

theorem wellFormed_of_decodeKey {w : Word} {i : Instr} (h1 : w.toNat / 0x1000 = 0xE) (h : decodeKey w = .ok i) :
    WellFormedWord w := by
  refine legal_of_key h1 ?_
  rw [← toNat_fieldKk]
  unfold decodeKey at h
  split at h
  case h_3 => cases h
  all_goals next hk => simp [hk]

theorem wellFormed_of_decodeMisc {w : Word} {i : Instr} (h1 : w.toNat / 0x1000 = 0xF) (h : decodeMisc w = .ok i) :
    WellFormedWord w := by
  refine legal_of_misc h1 ?_
  rw [← toNat_fieldKk]
  unfold decodeMisc at h
  split at h
  case h_10 => cases h
  all_goals next hk => simp [hk]

/-- By the first digit (R84): legal whatever follows, legal by the last digit, or the digit of a sub-map. -/
theorem wellFormed_of_decodeWord {w : Word} {i : Instr} (h : decodeWord w = .ok i) : WellFormedWord w := by
  unfold decodeWord at h
  split at h
  case h_1 => exact wellFormed_of_decodeZero h
  case h_6 hn | h_10 hn =>
    split at h
    next h0 => exact legal_of_pair (by simp [← toNat_nib1, hn]) (by simp [← toNat_nib4, h0])
    cases h
  case h_9 hn => exact wellFormed_of_decodeEight (by simp [← toNat_nib1, hn]) h
  case h_15 hn => exact wellFormed_of_decodeKey (by simp [← toNat_nib1, hn]) h
  case h_16 =>
    have hn : (nib1 w).toNat = 0xF := by
      simp only [imp_false] at *
      bv_omega
    exact wellFormed_of_decodeMisc (toNat_nib1 w ▸ hn) h
  all_goals next hn => exact legal_of_digit (by simp [← toNat_nib1, hn])

end Sys2Proof

namespace Sys2Proof.Machine

/-! ## A fault keeps the state (R171) -/

/-- An operation that can only fault or succeed. -/
theorem replyOf_snd_of_fault {s : State} {r : Except Fault State} {f : Fault} (h : (replyOf s r).1 = .fault f) :
    (replyOf s r).2 = s := by
  cases r with
  | ok t => cases h
  | error e => rfl

/-- A STEP: a held or refused one keeps the state too, and a completed one answers no fault. -/
theorem replyOfStep_snd_of_fault {s : State} {f : Fault} (h : (replyOfStep s).1 = .fault f) :
    (replyOfStep s).2 = s := by
  revert h
  unfold replyOfStep
  split
  · exact fun _ => rfl
  · split
    · exact fun h => nomatch h
    · exact fun _ => rfl
    · exact fun _ => rfl

/-- By the operation: POWER_ON, RESET, TICK and KEY_DELIVER answer no fault. -/
theorem perform_snd_of_fault {op : Operation} {s : State} {f : Fault} (h : (perform op s).1 = .fault f) :
    (perform op s).2 = s := by
  cases op with
  | powerOn rom => cases h
  | reset => cases h
  | loadProgram bytes => exact replyOf_snd_of_fault h
  | step => exact replyOfStep_snd_of_fault h
  | tick => cases h
  | keyDeliver k => cases h
  | memRead a => exact perform_memRead_snd s a
  | memWrite a b => exact replyOf_snd_of_fault h

/-! ## Frames compose -/

theorem Part.SameIn.refl (p : Part) (s : State) : p.SameIn s s := by
  cases p <;> exact Eq.refl _

theorem Part.SameIn.trans {p : Part} {s t u : State} (hst : p.SameIn s t) (htu : p.SameIn t u) : p.SameIn s u := by
  cases p <;> exact Eq.trans htu hst

theorem OnlyChanges.refl (may : Part → Prop) (s : State) : OnlyChanges may s s := fun p _ => Part.SameIn.refl p s

theorem OnlyChanges.trans {may : Part → Prop} {s t u : State} (hst : OnlyChanges may s t) (htu : OnlyChanges may t u) :
    OnlyChanges may s u := fun p hp => (hst p hp).trans (htu p hp)

/-! ## One tick (R185) -/

/-- A timer's test and decrement as a number: truncated subtraction. -/
theorem toNat_decrement (b : Byte) : (if b = 0x00 then b else b - 1).toNat = b.toNat - 1 := by
  split
  · next hb => simp [hb]
  · bv_omega

theorem toNat_tick_dt (s : State) : (tick s).dt.toNat = s.dt.toNat - 1 := toNat_decrement s.dt

theorem toNat_tick_st (s : State) : (tick s).st.toNat = s.st.toNat - 1 := toNat_decrement s.st

theorem tick_onlyChanges (s : State) : OnlyChanges (fun p => p = .delay ∨ p = .sound) s (tick s) := by
  intro p hp
  cases p with
  | delay => exact absurd (.inl rfl) hp
  | sound => exact absurd (.inr rfl) hp
  | _ => exact Eq.refl _

end Sys2Proof.Machine

open Sys2Proof Sys2Proof.Machine

/-! ## The obligations -/

/-- Settles O11: after a fault the state is the one before, so the operation is repeated on the same state. -/
theorem faultChangesNothing : Obligations.FaultChangesNothing := by
  intro op s f hf
  have hs : (perform op s).2 = s := perform_snd_of_fault hf
  exact ⟨hs, by rw [hs]⟩

/-- Settles O53, by induction on the number of ticks, the first tick taken off the list. -/
theorem ticksCountBothTimersDown : Obligations.TicksCountBothTimersDown := by
  intro n
  induction n with
  | zero => exact fun s => ⟨rfl, rfl, OnlyChanges.refl _ s, rfl⟩
  | succ n ih =>
    intro s
    obtain ⟨hdt, hst, hframe, -⟩ := ih (tick s)
    rw [toNat_tick_dt, Nat.sub_sub, Nat.add_comm 1 n] at hdt
    rw [toNat_tick_st, Nat.sub_sub, Nat.add_comm 1 n] at hst
    exact ⟨hdt, hst, (tick_onlyChanges s).trans hframe, rfl⟩

/-- Settles O9: a word that decodes is well formed, so an illegal word meets line 3 of R170; its fault keeps the state. -/
theorem illegalWordRaisesInvalidOpcode : Obligations.IllegalWordRaisesInvalidOpcode := by
  intro s w ha hf hw
  cases hd : decodeWord w with
  | ok i => exact absurd (wellFormed_of_decodeWord hd) hw
  | error c =>
    have hs := step_illegal ha hf hd
    exact ⟨hs, perform_step_of_fault ha hs⟩
end

section
/-! PROOFS. The encoding family (spec/30_encoding.md): decoder and encoder against each other and against the list of R89. -/

namespace Sys2Proof

/-! ## Decoding after encoding: a word is decoded by its first digit, and its format gives back the operands -/

/-- The last arm of R84: n1 = F is the sub-map of R88. -/
theorem decodeWord_of_misc {w : Word} (h : nib1 w = 0xF#4) : decodeWord w = decodeMisc w := by
  unfold decodeWord
  rw [h]
  rfl

/-- By the instruction: its format's first digit selects the arm of R84, the last digit or byte the arm of a sub-map. -/
theorem decodeWord_encode (i : Instr) : decodeWord (encode i) = .ok i := by
  cases i with
  | cls => rfl
  | ret => rfl
  | jp nnn | call nnn | ldINnn nnn | jpV0Nnn nnn => simp only [encode, decodeWord, nib1_formatA, fieldNnn_formatA]
  | seVxKk x kk | sneVxKk x kk | ldVxKk x kk | addVxKk x kk | rndVxKk x kk =>
    simp only [encode, decodeWord, nib1_formatXK, fieldX_formatXK, fieldKk_formatXK]
  | seVxVy x y | sneVxVy x y | drwVxVyN x y n =>
    simp only [encode, decodeWord, nib1_formatXYN, fieldX_formatXYN, fieldY_formatXYN, nib4_formatXYN, if_true]
  | ldVxVy x y | orVxVy x y | andVxVy x y | xorVxVy x y | addVxVy x y | subVxVy x y | shrVx x y | subnVxVy x y
  | shlVx x y =>
    simp only [encode, decodeWord, decodeEight, nib1_formatXYN, fieldX_formatXYN, fieldY_formatXYN, nib4_formatXYN]
  | skpVx x | sknpVx x =>
    simp only [encode, decodeWord, decodeKey, nib1_formatXK, fieldX_formatXK, fieldKk_formatXK]
  | ldVxDt x | ldVxK x | ldDtVx x | ldStVx x | addIVx x | ldFVx x | ldBVx x | ldMiVx x | ldVxMi x =>
    simp only [encode, decodeWord_of_misc (nib1_formatXK _ _ _), decodeMisc, fieldX_formatXK, fieldKk_formatXK]

/-- A number that is an encoded instruction's word decodes to that instruction. -/
theorem decodeWord_ofNat {v : Nat} {i : Instr} (h : (encode i).toNat = v) : decodeWord (BitVec.ofNat 16 v) = .ok i := by
  rw [← h, BitVec.ofNat_toNat, BitVec.setWidth_eq, decodeWord_encode]

/-! ## Encoding after decoding: one lemma for each sub-map of the opcode map -/

theorem encode_of_decodeZero {w : Word} {i : Instr} (h : decodeZero w = .ok i) : encode i = w := by
  unfold decodeZero at h
  split at h
  next hw => cases h; exact hw.symm
  split at h
  next hw => cases h; exact hw.symm
  cases h

theorem encode_of_decodeEight {w : Word} {i : Instr} (h1 : nib1 w = 0x8#4) (h : decodeEight w = .ok i) :
    encode i = w := by
  unfold decodeEight at h
  split at h
  case h_10 => cases h
  all_goals next hn => cases h; simp only [encode, ← h1, ← hn, formatXYN_fields]

theorem encode_of_decodeKey {w : Word} {i : Instr} (h1 : nib1 w = 0xE#4) (h : decodeKey w = .ok i) : encode i = w := by
  unfold decodeKey at h
  split at h
  case h_3 => cases h
  all_goals next hk => cases h; simp only [encode, ← h1, ← hk, formatXK_fields]

theorem encode_of_decodeMisc {w : Word} {i : Instr} (h1 : nib1 w = 0xF#4) (h : decodeMisc w = .ok i) : encode i = w := by
  unfold decodeMisc at h
  split at h
  case h_10 => cases h
  all_goals next hk => cases h; simp only [encode, ← h1, ← hk, formatXK_fields]

/-- A first digit that is none of the fifteen of R84 is the sixteenth. -/
theorem nib1_eq_misc {w : Word} (h : ∀ n ∈ [0, 1, 2, 3, 4, 5, 6, 7, 8, 9, 10, 11, 12, 13, 14], nib1 w ≠ BitVec.ofNat 4 n) :
    nib1 w = 0xF#4 := by
  revert h
  generalize nib1 w = k
  revert k
  decide

/-- By the first digit (R84): the format made of the word's own fields, or the digit of a sub-map. -/
theorem encode_of_decodeWord {w : Word} {i : Instr} (h : decodeWord w = .ok i) : encode i = w := by
  unfold decodeWord at h
  split at h
  case h_1 => exact encode_of_decodeZero h
  case h_6 hn | h_10 hn =>
    split at h
    next h0 => cases h; simp only [encode, ← hn, ← h0, formatXYN_fields]
    cases h
  case h_9 hn => exact encode_of_decodeEight hn h
  case h_15 hn => exact encode_of_decodeKey hn h
  case h_16 => exact encode_of_decodeMisc (nib1_eq_misc (by simp_all)) h
  case h_14 hn => cases h; simp only [encode, ← hn, formatXYN_fields]
  all_goals next hn => cases h; simp only [encode, ← hn, formatA_fields, formatXK_fields]

/-! ## The words the decoder rejects: one lemma for each class of R89 -/

theorem illegalClass_of_decodeZero {w : Word} {c : IllegalClass} (h1 : w.toNat / 0x1000 = 0)
    (h : decodeZero w = .error c) : illegalClass w = some c := by
  unfold decodeZero at h
  split at h
  · cases h
  split at h
  · cases h
  cases h
  unfold illegalClass
  rw [if_pos (by bv_omega)]

theorem illegalClass_eq_five {w : Word} (h1 : w.toNat / 0x1000 = 5) (h0 : w.toNat % 0x10 ≠ 0) :
    illegalClass w = some .fiveGroup := by
  unfold illegalClass
  rw [if_neg (by omega), if_pos ⟨h1, h0⟩]

theorem illegalClass_eq_nine {w : Word} (h1 : w.toNat / 0x1000 = 9) (h0 : w.toNat % 0x10 ≠ 0) :
    illegalClass w = some .nineGroup := by
  unfold illegalClass
  rw [if_neg (by omega), if_neg (by omega), if_neg (by omega), if_pos ⟨h1, h0⟩]

theorem illegalClass_of_decodeEight {w : Word} {c : IllegalClass} (h1 : w.toNat / 0x1000 = 8)
    (h : decodeEight w = .error c) : illegalClass w = some c := by
  unfold decodeEight at h
  split at h
  case h_10 =>
    cases h
    have h0 : w.toNat % 0x10 ∈ [0x8, 0x9, 0xA, 0xB, 0xC, 0xD, 0xF] := by
      rw [← toNat_nib4]
      simp only [imp_false, List.mem_cons, List.not_mem_nil, or_false] at *
      bv_omega
    unfold illegalClass
    rw [if_neg (by omega), if_neg (by omega), if_pos ⟨h1, h0⟩]
  all_goals cases h

theorem illegalClass_of_decodeKey {w : Word} {c : IllegalClass} (h1 : w.toNat / 0x1000 = 0xE)
    (h : decodeKey w = .error c) : illegalClass w = some c := by
  unfold decodeKey at h
  split at h
  case h_3 =>
    cases h
    have h0 : w.toNat % 0x100 ∉ [0x9E, 0xA1] := by
      rw [← toNat_fieldKk]
      simp only [imp_false, List.mem_cons, List.not_mem_nil, or_false] at *
      bv_omega
    unfold illegalClass
    rw [if_neg (by omega), if_neg (by omega), if_neg (by omega), if_neg (by omega), if_pos ⟨h1, h0⟩]
  all_goals cases h

theorem illegalClass_of_decodeMisc {w : Word} {c : IllegalClass} (h1 : w.toNat / 0x1000 = 0xF)
    (h : decodeMisc w = .error c) : illegalClass w = some c := by
  unfold decodeMisc at h
  split at h
  case h_10 =>
    cases h
    have h0 : w.toNat % 0x100 ∉ [0x07, 0x0A, 0x15, 0x18, 0x1E, 0x29, 0x33, 0x55, 0x65] := by
      rw [← toNat_fieldKk]
      simp only [imp_false, List.mem_cons, List.not_mem_nil, or_false] at *
      bv_omega
    unfold illegalClass
    rw [if_neg (by omega), if_neg (by omega), if_neg (by omega), if_neg (by omega), if_neg (by omega), if_pos ⟨h1, h0⟩]
  all_goals cases h

/-- By the first digit (R84): only the six groups with a sub-map or a fixed last digit reject a word. -/
theorem illegalClass_of_decodeWord {w : Word} {c : IllegalClass} (h : decodeWord w = .error c) :
    illegalClass w = some c := by
  unfold decodeWord at h
  split at h
  case h_1 hn => exact illegalClass_of_decodeZero (by simp [← toNat_nib1, hn]) h
  case h_6 hn =>
    split at h
    · cases h
    next h0 => cases h; exact illegalClass_eq_five (by simp [← toNat_nib1, hn]) (by rw [← toNat_nib4]; bv_omega)
  case h_10 hn =>
    split at h
    · cases h
    next h0 => cases h; exact illegalClass_eq_nine (by simp [← toNat_nib1, hn]) (by rw [← toNat_nib4]; bv_omega)
  case h_9 hn => exact illegalClass_of_decodeEight (by simp [← toNat_nib1, hn]) h
  case h_15 hn => exact illegalClass_of_decodeKey (by simp [← toNat_nib1, hn]) h
  case h_16 =>
    have hn : nib1 w = 0xF#4 := nib1_eq_misc (by simp_all)
    exact illegalClass_of_decodeMisc (by simp [← toNat_nib1, hn]) h
  all_goals cases h

end Sys2Proof

open Sys2Proof Sys2Proof.Machine

/-! ## The obligations -/

/-- Settles O1, by the instruction. -/
theorem decodeAfterEncode : Obligations.DecodeAfterEncode := decodeWord_encode

/-- Settles O2, by the arms of the decoder: the fields it reads and the digits it compares make up the word. -/
theorem encodeAfterDecode : Obligations.EncodeAfterDecode := fun _ _ => encode_of_decodeWord

/-- Settles O3: a rejected word is listed under the class it is rejected by; a word that decodes is not listed, so a listed
word is rejected, and by its one class. -/
theorem decoderRejectsExactlyTheListedWords : Obligations.DecoderRejectsExactlyTheListedWords := by
  intro w c
  refine ⟨illegalClass_of_decodeWord, fun hc => ?_⟩
  cases hd : decodeWord w with
  | ok i =>
    have hw : illegalClass w = none := wellFormed_of_decodeWord hd
    cases hw.symm.trans hc
  | error d =>
    have hd' := illegalClass_of_decodeWord hd
    cases hd'.symm.trans hc
    rfl

/-- Settles O4: the number of each pattern is that of the encoded instruction, by its format. -/
theorem decoderReadsEveryPattern : Obligations.DecoderReadsEveryPattern := by
  intro x y kk nnn n
  simp only [List.forall_mem_cons, List.not_mem_nil, false_implies, implies_true, and_true]
  refine ⟨⟨rfl, rfl⟩, ?_, ?_, ?_, ?_⟩
  · and_intros <;> exact decodeWord_ofNat (toNat_formatA _ _)
  · and_intros <;> exact decodeWord_ofNat ((toNat_formatXK _ _ _).trans (by bv_omega))
  · and_intros <;> exact decodeWord_ofNat ((toNat_formatXYN _ _ _ _).trans (by bv_omega))
  · and_intros <;> exact decodeWord_ofNat ((toNat_formatXK _ _ _).trans (by bv_omega))
/-- Settles O5: each word that decodes is the encoded instruction's, each of the others is in its class of R89. -/
theorem specWordsDecode : Obligations.SpecWordsDecode :=
  ⟨decodeWord_encode .cls, decodeWord_encode (.call 0xABC#12), decodeWord_encode (.seVxKk 10 0x7F#8),
    decodeWord_encode (.shrVx 3 15), decodeWord_encode (.drwVxVyN 1 2 5#4), decodeWord_encode (.sknpVx 3),
    decodeWord_encode (.ldMiVx 15), (decoderRejectsExactlyTheListedWords _ _).mpr (by decide),
    (decoderRejectsExactlyTheListedWords _ _).mpr (by decide), (decoderRejectsExactlyTheListedWords _ _).mpr (by decide)⟩
end

section
/-! PROOFS. The frame of every instruction (spec/00_scope.md R8): which parts of the state it may change, one rule for each
update of the state, and from the rules one lemma over all instructions. -/

namespace Sys2Proof.Machine

/-! ## One rule for each update of the state -/

/-- A frame may be widened. -/
theorem OnlyChanges.mono {may may' : Part → Prop} {s t : State} (h : OnlyChanges may s t) (hm : ∀ p, may p → may' p) :
    OnlyChanges may' s t := fun p hp => h p fun hp' => hp (hm p hp')

theorem setReg_onlyChanges (s : State) (r : RegIdx) (b : Byte) : OnlyChanges (· = .reg r) s (s.setReg r b) := by
  intro p hp
  cases p with
  | reg q => exact State.reg_setReg_other s b fun hq => hp (hq ▸ rfl)
  | _ => exact Eq.refl _

theorem setIndex_onlyChanges (s : State) (w : Word) : OnlyChanges (· = .index) s (s.setIndex w) := by
  intro p hp
  cases p with
  | index => exact absurd rfl hp
  | _ => exact Eq.refl _

theorem setDelay_onlyChanges (s : State) (b : Byte) : OnlyChanges (· = .delay) s (s.setDelay b) := by
  intro p hp
  cases p with
  | delay => exact absurd rfl hp
  | _ => exact Eq.refl _

theorem setSound_onlyChanges (s : State) (b : Byte) : OnlyChanges (· = .sound) s (s.setSound b) := by
  intro p hp
  cases p with
  | sound => exact absurd rfl hp
  | _ => exact Eq.refl _

theorem setAwait_onlyChanges (s : State) (a : Option RegIdx) : OnlyChanges (· = .await) s (s.setAwait a) := by
  intro p hp
  cases p with
  | await => exact absurd rfl hp
  | _ => exact Eq.refl _

theorem setPc_onlyChanges (s : State) (w : Word) : OnlyChanges (· = .pc) s (s.setPc w) := by
  intro p hp
  cases p with
  | pc => exact absurd rfl hp
  | _ => exact Eq.refl _

theorem setDisplay_onlyChanges (s : State) (d : Display) :
    OnlyChanges (fun p => ∃ row col, p = .pixel row col) s (s.setDisplay d) := by
  intro p hp
  cases p with
  | pixel row col => exact absurd ⟨row, col, rfl⟩ hp
  | _ => exact Eq.refl _

theorem noteKeySample_onlyChanges (s : State) : OnlyChanges (· = .keySamples) s s.noteKeySample := by
  intro p hp
  cases p with
  | keySamples => exact absurd rfl hp
  | _ => exact Eq.refl _

theorem noteRandDraw_onlyChanges (s : State) : OnlyChanges (· = .randDraws) s s.noteRandDraw := by
  intro p hp
  cases p with
  | randDraws => exact absurd rfl hp
  | _ => exact Eq.refl _

/-- A run of writes changes the bytes of its range only (R51). -/
theorem writeBytes_onlyChanges (s : State) (a : Nat) (xs : List Byte) :
    OnlyChanges (fun p => ∃ c, p = .byte c ∧ a ≤ c ∧ c < a + xs.length) s (s.setMem (s.mem.writeBytes a xs)) := by
  intro p hp
  cases p with
  | byte c =>
    have hc : ¬ (a ≤ c ∧ c < a + xs.length) := fun h => hp ⟨c, rfl, h⟩
    exact (Memory.read_writeBytes xs s.mem a c).trans (dif_neg hc)
  | _ => exact Eq.refl _

/-- The registers that a list of k bytes fills are V0 to V(k-1) (R145). -/
theorem fillRegs_onlyChanges (s : State) (bs : List Byte) :
    OnlyChanges (fun p => ∃ r : RegIdx, p = .reg r ∧ r.val < bs.length) s (s.setRegs (fillRegs s.v 0 bs)) := by
  intro p hp
  cases p with
  | reg r =>
    have hr : ¬ (0 ≤ r.val ∧ r.val < 0 + bs.length) := fun h => hp ⟨r, rfl, by omega⟩
    exact (getElem_fillRegs bs s.v 0 r.val r.isLt).trans (dif_neg hr)
  | _ => exact Eq.refl _

/-! ## The shapes the instructions share: an update, then PC moves on -/

/-- An update of one kind followed by the default advance. -/
theorem OnlyChanges.advance {may : Part → Prop} {s t : State} (h : OnlyChanges may s t) :
    OnlyChanges (fun p => p = .pc ∨ may p) s t.advance :=
  (h.mono fun _ => .inr).trans ((setPc_onlyChanges t _).mono fun _ => .inl)

/-- Result, then flag (R133). -/
theorem setResultAndFlag_onlyChanges (s : State) (x : RegIdx) (b : Byte) (f : Bool) :
    OnlyChanges (fun p => p = .reg x ∨ p = .reg vf) s (s.setResultAndFlag x b f) :=
  ((setReg_onlyChanges s x b).mono fun _ => .inl).trans ((setReg_onlyChanges _ vf _).mono fun _ => .inr)

/-! ## The frame of an instruction -/

/-- The parts of the state that an instruction may change, executed in the state s (the entries of spec/40_flow.md to
spec/44_keypad_timers.md). The state gives the stack slot of 2nnn and the range of Fx33 and Fx55. -/
def MayChange (s : State) : Instr → Part → Prop
  | .jp _, p | .jpV0Nnn _, p | .seVxKk _ _, p | .sneVxKk _ _, p | .seVxVy _ _, p | .sneVxVy _ _, p => p = .pc
  | .ret, p => p = .pc ∨ p = .depth
  | .call _, p => p = .pc ∨ p = .depth ∨ ∃ j, p = .slot j ∧ s.sp.val = j.val
  | .ldVxKk x _, p | .addVxKk x _, p | .ldVxVy x _, p | .orVxVy x _, p | .andVxVy x _, p | .xorVxVy x _, p
  | .ldVxDt x, p => p = .pc ∨ p = .reg x
  | .addVxVy x _, p | .subVxVy x _, p | .shrVx x _, p | .subnVxVy x _, p | .shlVx x _, p =>
    p = .pc ∨ p = .reg x ∨ p = .reg vf
  | .rndVxKk x _, p => p = .pc ∨ p = .reg x ∨ p = .randDraws
  | .ldINnn _, p | .addIVx _, p | .ldFVx _, p => p = .pc ∨ p = .index
  | .ldDtVx _, p => p = .pc ∨ p = .delay
  | .ldStVx _, p => p = .pc ∨ p = .sound
  | .ldBVx _, p => p = .pc ∨ ∃ a, p = .byte a ∧ s.base ≤ a ∧ a < s.base + 3
  | .ldMiVx x, p => p = .pc ∨ ∃ a, p = .byte a ∧ s.base ≤ a ∧ a < s.base + (x.val + 1)
  | .ldVxMi x, p => p = .pc ∨ ∃ r : RegIdx, p = .reg r ∧ r.val ≤ x.val
  | .cls, p => p = .pc ∨ ∃ row col, p = .pixel row col
  | .drwVxVyN _ _ _, p => p = .pc ∨ p = .reg vf ∨ ∃ row col, p = .pixel row col
  | .skpVx _, p | .sknpVx _, p => p = .pc ∨ p = .keySamples
  | .ldVxK _, p => p = .await

theorem execRet_onlyChanges {s t : State} (h : execRet s = .next t) : OnlyChanges (MayChange s .ret) s t := by
  obtain ⟨_, rfl⟩ := execRet_eq_next.mp h
  intro p hp
  cases p with
  | pc => exact absurd (.inl rfl) hp
  | depth => exact absurd (.inr rfl) hp
  | _ => exact Eq.refl _

theorem execCall_onlyChanges {nnn : Addr12} {s t : State} (h : execCall nnn s = .next t) :
    OnlyChanges (MayChange s (.call nnn)) s t := by
  obtain ⟨hd, rfl⟩ := execCall_eq_next.mp h
  intro p hp
  cases p with
  | pc => exact absurd (.inl rfl) hp
  | depth => exact absurd (.inr (.inl rfl)) hp
  | slot j =>
    have hj : s.sp.val ≠ j.val := fun h => hp (.inr (.inr ⟨j, rfl, h⟩))
    exact Vector.getElem_set_ne hd j.isLt hj
  | _ => exact Eq.refl _

theorem execDrw_onlyChanges {x y : RegIdx} {n : Nibble} {s t : State} (h : execDrwVxVyN x y n s = .next t) :
    OnlyChanges (MayChange s (.drwVxVyN x y n)) s t := by
  obtain ⟨_, rfl⟩ := execDrwVxVyN_eq_next.mp h
  exact OnlyChanges.advance (((setDisplay_onlyChanges s _).mono fun _ => .inr).trans
    ((setReg_onlyChanges _ vf _).mono fun _ => .inl))

theorem storeAndAdvance_onlyChanges {xs : List Byte} {s t : State} (h : s.storeAndAdvance xs = .next t) :
    OnlyChanges (fun p => p = .pc ∨ ∃ a, p = .byte a ∧ s.base ≤ a ∧ a < s.base + xs.length) s t := by
  obtain ⟨_, rfl⟩ := State.storeAndAdvance_eq_next.mp h
  exact (writeBytes_onlyChanges s s.base xs).advance

theorem execLdVxMi_onlyChanges {x : RegIdx} {s t : State} (h : execLdVxMi x s = .next t) :
    OnlyChanges (MayChange s (.ldVxMi x)) s t := by
  obtain ⟨_, rfl⟩ := execLdVxMi_eq_next.mp h
  refine (fillRegs_onlyChanges s _).advance.mono ?_
  rintro p (hp | ⟨r, hp, hr⟩)
  · exact .inl hp
  · rw [Memory.length_readBytes] at hr
    exact .inr ⟨r, hp, by omega⟩

/-- Every instruction keeps to its frame. -/
theorem exec_onlyChanges {i : Instr} {s t : State} (h : exec i s = .next t) : OnlyChanges (MayChange s i) s t := by
  cases i with
  | ret => exact execRet_onlyChanges h
  | call nnn => exact execCall_onlyChanges h
  | drwVxVyN x y n => exact execDrw_onlyChanges h
  | ldBVx x => exact storeAndAdvance_onlyChanges h
  | ldMiVx x =>
    have hframe := storeAndAdvance_onlyChanges h
    rw [State.length_regsUpTo] at hframe
    exact hframe
  | ldVxMi x => exact execLdVxMi_onlyChanges h
  | jp | jpV0Nnn | seVxKk | sneVxKk | seVxVy | sneVxVy => cases h; exact setPc_onlyChanges s _
  | ldVxKk | addVxKk | ldVxVy | orVxVy | andVxVy | xorVxVy | ldVxDt => cases h; exact (setReg_onlyChanges s _ _).advance
  | addVxVy | subVxVy | shrVx | subnVxVy | shlVx => cases h; exact (setResultAndFlag_onlyChanges s _ _ _).advance
  | rndVxKk =>
    cases h
    exact OnlyChanges.advance (((noteRandDraw_onlyChanges s).mono fun _ => .inr).trans
      ((setReg_onlyChanges _ _ _).mono fun _ => .inl))
  | ldINnn | addIVx | ldFVx => cases h; exact (setIndex_onlyChanges s _).advance
  | ldDtVx => cases h; exact (setDelay_onlyChanges s _).advance
  | ldStVx => cases h; exact (setSound_onlyChanges s _).advance
  | cls => cases h; exact (setDisplay_onlyChanges s _).advance
  | skpVx | sknpVx =>
    cases h
    exact ((noteKeySample_onlyChanges s).mono fun _ => .inr).trans ((setPc_onlyChanges _ _).mono fun _ => .inl)
  | ldVxK => cases h; exact setAwait_onlyChanges s _

end Sys2Proof.Machine

open Sys2Proof Sys2Proof.Machine

/-! ## The obligations -/

/-- Settles O58: each frame is the instruction's case of `MayChange`. -/
theorem frameOfControlTransfers : Obligations.FrameOfControlTransfers := by
  intro x y kk nnn s t
  exact ⟨exec_onlyChanges, exec_onlyChanges, exec_onlyChanges, exec_onlyChanges, exec_onlyChanges, exec_onlyChanges,
    exec_onlyChanges⟩

/-- Settles O59: each frame is the instruction's case of `MayChange`. -/
theorem frameOfRegisterWriters : Obligations.FrameOfRegisterWriters := by
  intro x y kk s t
  exact ⟨exec_onlyChanges, exec_onlyChanges, exec_onlyChanges, exec_onlyChanges, exec_onlyChanges, exec_onlyChanges,
    exec_onlyChanges, exec_onlyChanges⟩

/-- Settles O60: each frame is the instruction's case of `MayChange`. -/
theorem frameOfIndexAndTimerWriters : Obligations.FrameOfIndexAndTimerWriters := by
  intro x nnn s t
  exact ⟨exec_onlyChanges, exec_onlyChanges, exec_onlyChanges⟩
end

section
/-! PROOFS. What an instruction can do to memory and to PC, and how it can end, each said once over all instructions; from
these and the frame the whole-machine rules: the step's outcomes, who writes what, and the unread sound timer. -/

namespace Sys2Proof.Machine

/-! ## How an instruction can end -/

theorem exec_ne_refused {i : Instr} {s : State} {q : Refusal} : exec i s ≠ .refused q := by
  cases i with
  | ret | call | drwVxVyN | ldBVx | ldMiVx | ldVxMi => exact commit_ne_refused
  | _ => exact nofun

/-- The faults an instruction can raise: three of the five (R173, R175, R176). -/
theorem exec_fault {i : Instr} {s : State} {f : Fault} (h : exec i s = .fault f) :
    f = .addressOutOfRange ∨ f = .stackOverflow ∨ f = .stackUnderflow := by
  cases i with
  | ret => exact .inr (.inr (execRet_eq_fault.mp h).2)
  | call nnn => exact .inr (.inl (execCall_eq_fault.mp h).2)
  | drwVxVyN x y n => exact .inl (execDrwVxVyN_eq_fault.mp h).2
  | ldBVx x | ldMiVx x => exact .inl (State.storeAndAdvance_eq_fault.mp h).2
  | ldVxMi x => exact .inl (execLdVxMi_eq_fault.mp h).2
  | _ => cases h

/-! ## What an instruction can do to memory -/

/-- A run of at least one byte stored at I: it lies between the guard and the end of memory (R55). -/
theorem storeAndAdvance_mem {s t : State} {xs : List Byte} (hxs : xs.length ≠ 0) (h : s.storeAndAdvance xs = .next t) :
    storeFloor ≤ s.base ∧ s.base + xs.length ≤ memSize ∧ t.mem = s.mem.writeBytes s.base xs := by
  obtain ⟨hr, rfl⟩ := State.storeAndAdvance_eq_next.mp h
  obtain ⟨hlo, hhi⟩ := hr.resolve_left hxs
  exact ⟨hlo, hhi, rfl⟩

/-- Memory is as before, or the instruction is one of the two that store, at I and within the bounds of R55. -/
theorem exec_mem {i : Instr} {s t : State} (h : exec i s = .next t) :
    t.mem = s.mem ∨ ((∃ x, i = .ldBVx x) ∨ ∃ x, i = .ldMiVx x) ∧
      ∃ xs, storeFloor ≤ s.base ∧ s.base + xs.length ≤ memSize ∧ t.mem = s.mem.writeBytes s.base xs := by
  cases i with
  | ldBVx x => exact .inr ⟨.inl ⟨x, rfl⟩, _, storeAndAdvance_mem (by simp [bcdDigits]) h⟩
  | ldMiVx x => exact .inr ⟨.inr ⟨x, rfl⟩, _, storeAndAdvance_mem (by simp) h⟩
  | ret => obtain ⟨_, rfl⟩ := execRet_eq_next.mp h; exact .inl rfl
  | call nnn => obtain ⟨_, rfl⟩ := execCall_eq_next.mp h; exact .inl rfl
  | drwVxVyN x y n => obtain ⟨_, rfl⟩ := execDrwVxVyN_eq_next.mp h; exact .inl rfl
  | ldVxMi x => obtain ⟨_, rfl⟩ := execLdVxMi_eq_next.mp h; exact .inl rfl
  | _ => cases h; exact .inl rfl

/-! ## What an instruction can do to PC -/

theorem skipIf_pc_cases (s : State) (c : Bool) : (s.skipIf c).pc = s.pc + 2 ∨ (s.skipIf c).pc = s.pc + 4 := by
  cases c
  · exact .inl rfl
  · exact .inr rfl

/-- PC moves on by one or two instructions (R100), stays on a key wait (R162), or is a target: a 12-bit address, one with a
byte added (R104), or an entry of the stack (R101). -/
theorem exec_pc {i : Instr} {s t : State} (h : exec i s = .next t) :
    (t.pc = s.pc + 2 ∨ t.pc = s.pc + 4) ∨ (∃ x, i = .ldVxK x) ∧ t.pc = s.pc ∨
      Transfers i ∧ (t.pc.toNat ≤ 0x10FE ∨ ∃ j : Fin 16, t.pc = s.stack[j.val]) := by
  cases i with
  | jp nnn =>
    cases h
    exact .inr (.inr ⟨trivial, .inl (by rw [State.setPc_pc, toNat_zextAddr]; omega)⟩)
  | jpV0Nnn nnn =>
    cases h
    have := toNat_zextAddr nnn
    have := toNat_zextByte (s.reg v0)
    exact .inr (.inr ⟨trivial, .inl (by rw [State.setPc_pc]; bv_omega)⟩)
  | call nnn =>
    obtain ⟨_, rfl⟩ := execCall_eq_next.mp h
    exact .inr (.inr ⟨trivial, .inl (by rw [toNat_zextAddr]; omega)⟩)
  | ret =>
    obtain ⟨_, rfl⟩ := execRet_eq_next.mp h
    exact .inr (.inr ⟨trivial, .inr ⟨⟨s.sp.val - 1, by omega⟩, rfl⟩⟩)
  | ldVxK x => cases h; exact .inr (.inl ⟨⟨x, rfl⟩, rfl⟩)
  | seVxKk | sneVxKk | seVxVy | sneVxVy | skpVx | sknpVx => cases h; exact .inl (skipIf_pc_cases _ _)
  | drwVxVyN x y n => obtain ⟨_, rfl⟩ := execDrwVxVyN_eq_next.mp h; exact .inl (.inl rfl)
  | ldBVx x | ldMiVx x => obtain ⟨_, rfl⟩ := State.storeAndAdvance_eq_next.mp h; exact .inl (.inl rfl)
  | ldVxMi x => obtain ⟨_, rfl⟩ := execLdVxMi_eq_next.mp h; exact .inl (.inl rfl)
  | _ => cases h; exact .inl (.inl rfl)

/-! ## Who may change what, read off the frame -/

theorem mayWriteVf_of_mayChange {s : State} {i : Instr} (h : MayChange s i (.reg vf)) : MayWriteVf i := by
  cases i with
  | addVxVy | subVxVy | shrVx | subnVxVy | shlVx | drwVxVyN => trivial
  | ldVxKk | addVxKk | ldVxVy | orVxVy | andVxVy | xorVxVy | rndVxKk | ldVxDt =>
    simpa [MayChange, MayWriteVf, eq_comm] using h
  | ldVxMi x =>
    have hx : vf ≤ x := by simpa [MayChange] using h
    exact Fin.le_antisymm (Fin.le_last x) hx
  | _ => simp [MayChange] at h

theorem indexWriter_of_mayChange {s : State} {i : Instr} (h : MayChange s i .index) :
    (∃ nnn, i = .ldINnn nnn) ∨ (∃ x, i = .addIVx x) ∨ ∃ x, i = .ldFVx x := by
  cases i with
  | ldINnn nnn => exact .inl ⟨nnn, rfl⟩
  | addIVx x => exact .inr (.inl ⟨x, rfl⟩)
  | ldFVx x => exact .inr (.inr ⟨x, rfl⟩)
  | _ => simp [MayChange] at h

theorem delayWriter_of_mayChange {s : State} {i : Instr} (h : MayChange s i .delay) : ∃ x, i = .ldDtVx x := by
  cases i with
  | ldDtVx x => exact ⟨x, rfl⟩
  | _ => simp [MayChange] at h

theorem soundWriter_of_mayChange {s : State} {i : Instr} (h : MayChange s i .sound) : ∃ x, i = .ldStVx x := by
  cases i with
  | ldStVx x => exact ⟨x, rfl⟩
  | _ => simp [MayChange] at h

theorem pixelWriter_of_mayChange {s : State} {i : Instr} {row : Fin 32} {col : Fin 64}
    (h : MayChange s i (.pixel row col)) : i = .cls ∨ ∃ x y n, i = .drwVxVyN x y n := by
  cases i with
  | cls => exact .inl rfl
  | drwVxVyN x y n => exact .inr ⟨x, y, n, rfl⟩
  | _ => simp [MayChange] at h

theorem depthWriter_of_mayChange {s : State} {i : Instr} (h : MayChange s i .depth) : i = .ret ∨ ∃ nnn, i = .call nnn := by
  cases i with
  | ret => exact .inl rfl
  | call nnn => exact .inr ⟨nnn, rfl⟩
  | _ => simp [MayChange] at h

theorem slotWriter_of_mayChange {s : State} {i : Instr} {j : Fin 16} (h : MayChange s i (.slot j)) :
    ∃ nnn, i = .call nnn := by
  cases i with
  | call nnn => exact ⟨nnn, rfl⟩
  | _ => simp [MayChange] at h

theorem awaitWriter_of_mayChange {s : State} {i : Instr} (h : MayChange s i .await) : ∃ x, i = .ldVxK x := by
  cases i with
  | ldVxK x => exact ⟨x, rfl⟩
  | _ => simp [MayChange] at h

/-- A part that an instruction changed is one it may change. -/
theorem mayChange_of_changed {i : Instr} {s t : State} (h : exec i s = .next t) {p : Part} (hp : ¬ p.SameIn s t) :
    MayChange s i p := by
  by_contra hm
  exact hp (exec_onlyChanges h p hm)

/-- A display is its pixels. -/
theorem Display.ext_pixel {d e : Display}
    (h : ∀ (row : Fin 32) (col : Fin 64), d.pixel row.val col.val = e.pixel row.val col.val) : d = e := by
  refine Vector.ext fun row hrow => Vector.ext fun col hcol => ?_
  simpa [Display.pixel, Nat.mod_eq_of_lt hrow, Nat.mod_eq_of_lt hcol] using h ⟨row, hrow⟩ ⟨col, hcol⟩

/-- A display that differs has a pixel that differs. -/
theorem exists_pixel_changed {s t : State} (h : t.fb ≠ s.fb) : ∃ row col, ¬ (Part.pixel row col).SameIn s t := by
  by_contra hall
  push Not at hall
  exact h (Display.ext_pixel hall)

/-- A stack that differs has a slot that differs. -/
theorem exists_slot_changed {s t : State} (h : t.stack ≠ s.stack) : ∃ j, ¬ (Part.slot j).SameIn s t := by
  by_contra hall
  push Not at hall
  exact h (Vector.ext fun j hj => hall ⟨j, hj⟩)

/-! ## The sound timer is not read -/

/-- Two outcomes, the second with the sound timer at b throughout. -/
theorem outcomesSameButSound_of {r r' : Result} {b : Byte} (hnext : ∀ t, r = .next t → r' = .next (t.setSound b))
    (hfault : ∀ f, r = .fault f → r' = .fault f) (hrefused : ∀ q, r ≠ .refused q) : OutcomesSameButSound r r' := by
  cases r with
  | next t => rw [hnext t rfl]; exact Eq.refl _
  | fault f => rw [hfault f rfl]; exact Eq.refl _
  | refused q => exact absurd rfl (hrefused q)

/-- A run of bytes stored at I. -/
theorem storeAndAdvance_setSound (s : State) (b : Byte) (xs : List Byte) :
    OutcomesSameButSound (s.storeAndAdvance xs) ((s.setSound b).storeAndAdvance xs) := by
  refine outcomesSameButSound_of (b := b) (fun t h => ?_) (fun f h => ?_) (fun q => commit_ne_refused)
  · obtain ⟨hr, rfl⟩ := State.storeAndAdvance_eq_next.mp h
    exact State.storeAndAdvance_eq_next.mpr ⟨hr, rfl⟩
  · exact State.storeAndAdvance_eq_fault.mpr ((State.storeAndAdvance_eq_fault (s := s)).mp h)

/-- By the instruction: one that can fault decides on parts that are the same, and its next state is the same but for the
sound timer; every other one computes its next state from the parts it reads, the sound timer not among them. -/
theorem exec_setSound (i : Instr) (s : State) (b : Byte) : OutcomesSameButSound (exec i s) (exec i (s.setSound b)) := by
  cases i with
  | ret =>
    refine outcomesSameButSound_of (b := b) (fun t h => ?_) (fun f h => ?_) (fun q => exec_ne_refused)
    · obtain ⟨hd, rfl⟩ := execRet_eq_next.mp h
      exact execRet_eq_next.mpr ⟨hd, rfl⟩
    · exact execRet_eq_fault.mpr ((execRet_eq_fault (s := s)).mp h)
  | call nnn =>
    refine outcomesSameButSound_of (b := b) (fun t h => ?_) (fun f h => ?_) (fun q => exec_ne_refused)
    · obtain ⟨hd, rfl⟩ := execCall_eq_next.mp h
      exact execCall_eq_next.mpr ⟨hd, rfl⟩
    · exact execCall_eq_fault.mpr ((execCall_eq_fault (s := s)).mp h)
  | drwVxVyN x y n =>
    refine outcomesSameButSound_of (b := b) (fun t h => ?_) (fun f h => ?_) (fun q => exec_ne_refused)
    · obtain ⟨hr, rfl⟩ := execDrwVxVyN_eq_next.mp h
      exact execDrwVxVyN_eq_next.mpr ⟨hr, rfl⟩
    · exact execDrwVxVyN_eq_fault.mpr ((execDrwVxVyN_eq_fault (s := s)).mp h)
  | ldBVx x | ldMiVx x => exact storeAndAdvance_setSound s b _
  | ldVxMi x =>
    refine outcomesSameButSound_of (b := b) (fun t h => ?_) (fun f h => ?_) (fun q => exec_ne_refused)
    · obtain ⟨hr, rfl⟩ := execLdVxMi_eq_next.mp h
      exact execLdVxMi_eq_next.mpr ⟨hr, rfl⟩
    · exact execLdVxMi_eq_fault.mpr ((execLdVxMi_eq_fault (s := s)).mp h)
  | _ => exact Eq.refl _

/-! ## The reply to a STEP, and updates that change nothing -/

/-- A STEP that ends in a next state with no wait pending answers Ok (R193). -/
theorem perform_step_of_next {s t : State} (ha : s.await = none) (hs : step s = .next t) : perform .step s = (.ok, t) := by
  simp [perform, replyOfStep, ha, hs]

/-- A STEP made during a key wait answers Held (R193). -/
theorem perform_step_held {s : State} {r : RegIdx} (ha : s.await = some r) : perform .step s = (.held, s) := by
  simp [perform, replyOfStep, ha]

/-- A next state has the code 0, Held included (R172). -/
theorem outcomeCode_of_next {s t : State} (hs : step s = .next t) : outcomeCode (perform .step s).1 = some 0 := by
  cases ha : s.await with
  | some r => rw [perform_step_held ha]; rfl
  | none => rw [perform_step_of_next ha hs]; rfl

/-- A step's fault has the fault's code (R172). -/
theorem outcomeCode_of_fault {s : State} {f : Fault} (ha : s.await = none) (hs : step s = .fault f) :
    outcomeCode (perform .step s).1 = some (faultCode f) := by
  rw [perform_step_of_fault ha hs]
  rfl

theorem State.setAwait_self {s : State} {a : Option RegIdx} (h : s.await = a) : s.setAwait a = s := by
  subst a
  rfl

theorem State.setPc_self {s : State} {w : Word} (h : s.pc = w) : s.setPc w = s := by
  subst w
  rfl

end Sys2Proof.Machine

open Sys2Proof Sys2Proof.Machine

/-! ## The obligations -/

/-- Settles O10, by the four cases of a step and the faults an instruction can raise. -/
theorem stepEndsInOneOfItsOutcomes : Obligations.StepEndsInOneOfItsOutcomes := by
  refine ⟨fun s => ?_, rfl⟩
  obtain ⟨r, -, hs⟩ | ⟨ha, -, hs⟩ | ⟨w, c, ha, -, -, hs⟩ | ⟨w, i, ha, -, -, hs⟩ := step_cases s
  · exact .inl ⟨⟨s, hs⟩, outcomeCode_of_next hs⟩
  · exact .inr (.inl ⟨hs, outcomeCode_of_fault ha hs⟩)
  · exact .inr (.inr (.inr (.inr ⟨hs, outcomeCode_of_fault ha hs⟩)))
  cases he : exec i s with
  | next t =>
    have hs := hs.trans he
    exact .inl ⟨⟨t, hs⟩, outcomeCode_of_next hs⟩
  | fault f =>
    have hs := hs.trans he
    obtain rfl | rfl | rfl := exec_fault he
    · exact .inr (.inl ⟨hs, outcomeCode_of_fault ha hs⟩)
    · exact .inr (.inr (.inl ⟨hs, outcomeCode_of_fault ha hs⟩))
    · exact .inr (.inr (.inr (.inl ⟨hs, outcomeCode_of_fault ha hs⟩)))
  | refused q => exact absurd he exec_ne_refused

/-- Settles O6: the fetch answers the word of the two bytes, so lines 4 and 5 of R170 apply. -/
theorem stepRunsTheDecodedInstruction : Obligations.StepRunsTheDecodedInstruction := by
  rintro s hi lo i ha hpc rfl rfl hd
  have hf := State.fetch_eq_ok.mpr ⟨Nat.lt_of_le_of_lt (Nat.succ_le_succ hpc) (by decide), rfl⟩
  have hs := step_decoded ha hf hd
  exact ⟨hs, fun t ht => perform_step_of_next ha (hs.trans ht)⟩

/-- Settles O7: line 1 of R170; the waiting Fx0A sets AWAIT to what it is. -/
theorem keyWaitHoldsTheStep : Obligations.KeyWaitHoldsTheStep := fun _ _ ha =>
  ⟨step_held ha, perform_step_held ha, congrArg Host.Outcome.next (State.setAwait_self ha)⟩

/-- Settles O57: the word decodes to the jump, which sets PC to what it is. -/
theorem jumpToItselfIsAFixedPoint : Obligations.JumpToItselfIsAFixedPoint := by
  intro nnn s ha hpc hf
  have hw : s.pc = zextAddr nnn := BitVec.eq_of_toNat_eq (hpc.trans (toNat_zextAddr nnn).symm)
  exact (step_decoded ha hf (decodeWord_encode _)).trans (congrArg Host.Outcome.next (State.setPc_self hw))

/-- Settles O17: the cases of memory. -/
theorem onlyFx33AndFx55WriteMemory : Obligations.OnlyFx33AndFx55WriteMemory := by
  intro i s t h hB hM a
  obtain hm | ⟨⟨x, hi⟩ | ⟨x, hi⟩, -⟩ := exec_mem h
  · rw [hm]
  · exact absurd hi (hB x)
  · exact absurd hi (hM x)

/-- Settles O16: a step that stores runs an instruction whose store starts at the guard or above. -/
theorem noStepWritesTheGlyphRegion : Obligations.NoStepWritesTheGlyphRegion := by
  intro s t a h ha
  obtain ⟨-, rfl⟩ | ⟨w, i, -, -, -, -, he⟩ := step_eq_next h
  · rfl
  obtain hm | ⟨-, xs, hfloor, -, hm⟩ := exec_mem he
  · rw [hm]
  · simp only [storeFloor] at hfloor
    rw [hm, Memory.read_writeBytes, dif_neg (by omega)]

/-- Settles O18: by the frame, an instruction that changes VF may change it, so it is one of its writers. -/
theorem vfIsChangedOnlyByItsWriters : Obligations.VfIsChangedOnlyByItsWriters := fun _ _ _ h hw =>
  exec_onlyChanges h (.reg vf) fun hm => hw (mayWriteVf_of_mayChange hm)

/-- Settles O19: by the frame, an instruction that changes a part may change it; the display and the stack by a pixel or a
slot that differs. -/
theorem eachSpecialRegisterHasItsWriters : Obligations.EachSpecialRegisterHasItsWriters := by
  intro i s t h
  refine ⟨fun hc => indexWriter_of_mayChange (mayChange_of_changed (p := .index) h hc),
    fun hc => delayWriter_of_mayChange (mayChange_of_changed (p := .delay) h hc),
    fun hc => soundWriter_of_mayChange (mayChange_of_changed (p := .sound) h hc), fun hc => ?_, fun hc => ?_,
    fun hc => awaitWriter_of_mayChange (mayChange_of_changed (p := .await) h hc)⟩
  · obtain ⟨row, col, hp⟩ := exists_pixel_changed hc
    exact pixelWriter_of_mayChange (mayChange_of_changed h hp)
  · obtain hc | hc := hc
    · exact depthWriter_of_mayChange (mayChange_of_changed (p := .depth) h hc)
    · obtain ⟨j, hp⟩ := exists_slot_changed hc
      exact .inr (slotWriter_of_mayChange (mayChange_of_changed h hp))

/-- Settles O20: an instruction does not read the sound timer, and neither do the fetch and the test of AWAIT. -/
theorem soundTimerIsNeverRead : Obligations.SoundTimerIsNeverRead := by
  refine ⟨exec_setSound, fun s b => ?_⟩
  have hfetch : (s.setSound b).fetch = s.fetch := State.fetch_congr rfl rfl
  obtain ⟨r, ha, hs⟩ | ⟨ha, hf, hs⟩ | ⟨w, c, ha, hf, hd, hs⟩ | ⟨w, i, ha, hf, hd, hs⟩ := step_cases s <;> rw [hs]
  · rw [step_held (s := s.setSound b) ha]
    exact Eq.refl _
  · rw [step_fetchFault (s := s.setSound b) ha (hfetch.trans hf)]
    exact Eq.refl _
  · rw [step_illegal (s := s.setSound b) ha (hfetch.trans hf) hd]
    exact Eq.refl _
  · rw [step_decoded (s := s.setSound b) ha (hfetch.trans hf) hd]
    exact exec_setSound i s b

/-- Settles O21: an instruction that is no transfer leaves PC where it is or adds 2 or 4, also across the wrap. -/
theorem onlyTransfersChangeTheParityOfPc : Obligations.OnlyTransfersChangeTheParityOfPc := by
  intro i s t h hT
  obtain (hpc | hpc) | ⟨-, hpc⟩ | ⟨hT', -⟩ := exec_pc h
  · rw [hpc]; bv_omega
  · rw [hpc]; bv_omega
  · rw [hpc]
  · exact absurd hT' hT
end

section
/-! PROOFS. The invariant (spec/10_state.md R24, R30): memory in canonical form, the bounds of PC and of the stack entries,
a waiting PC fetchable. Each operation keeps it, so every run does. -/

namespace Sys2Proof.Machine

/-! ## The invariant, part by part -/

/-- What the invariant says of PC alone, read off the four kinds of next PC (R24). -/
theorem exec_pc_le {i : Instr} {s t : State} (h : exec i s = .next t) (hpc : s.pc.toNat ≤ 0xFFE)
    (hstack : ∀ j : Fin 16, s.stack[j.val].toNat ≤ 0x1000) : t.pc.toNat ≤ 0x10FE := by
  obtain (h' | h') | ⟨-, h'⟩ | ⟨-, h' | ⟨j, h'⟩⟩ := exec_pc h
  · rw [h']; bv_omega
  · rw [h']; bv_omega
  · rw [h']; omega
  · exact h'
  · have := hstack j
    rw [h']; omega

/-- A store of R55 lies in memory, so it keeps the canonical form. -/
theorem exec_wf {i : Instr} {s t : State} (h : exec i s = .next t) (hwf : s.mem.wf = true) : t.mem.wf = true := by
  obtain hm | ⟨-, xs, -, hle, hm⟩ := exec_mem h
  · rw [hm]; exact hwf
  · rw [hm]; exact Memory.wf_writeBytes xs s.mem s.base hle hwf

/-- The stack as a call leaves it, or as it was (R103). -/
theorem exec_stack {i : Instr} {s t : State} (h : exec i s = .next t) (j : Fin 16) :
    t.stack[j.val] = s.stack[j.val] ∨ t.stack[j.val] = s.pc + 2 := by
  by_cases hm : MayChange s i (.slot j)
  · obtain ⟨nnn, rfl⟩ := slotWriter_of_mayChange hm
    obtain ⟨_, rfl⟩ := execCall_eq_next.mp h
    rw [Vector.getElem_set]
    split
    · exact .inr rfl
    · exact .inl rfl
  · exact .inl (exec_onlyChanges h _ hm)

/-- AWAIT is as before, or the instruction entered the wait for its own register and changed nothing else (R162). -/
theorem exec_await {i : Instr} {s t : State} (h : exec i s = .next t) :
    t.await = s.await ∨ ∃ x, i = .ldVxK x ∧ t = s.setAwait (some x) := by
  by_cases hm : MayChange s i .await
  · obtain ⟨x, rfl⟩ := awaitWriter_of_mayChange hm
    cases h
    exact .inr ⟨x, rfl, rfl⟩
  · exact .inl (exec_onlyChanges h _ hm)

/-- A step keeps the invariant: it was Held, or ran an instruction from a PC of at most 0xFFE. -/
theorem step_invariant {s t : State} (hI : Invariant s) (h : step s = .next t) : Invariant t := by
  obtain ⟨-, rfl⟩ | ⟨w, i, ha, hpc, -, -, he⟩ := step_eq_next h
  · exact hI
  obtain ⟨hwf, -, hstack, -⟩ := hI
  refine ⟨exec_wf he hwf, exec_pc_le he hpc hstack, fun j => ?_, fun hw => ?_⟩
  · obtain hj | hj := exec_stack he j
    · rw [hj]; exact hstack j
    · rw [hj]; bv_omega
  · obtain ha' | ⟨x, -, rfl⟩ := exec_await he
    · rw [ha', ha] at hw
      cases hw
    · exact hpc

/-! ## The operations of the environment -/

/-- A memory in canonical form under the invariant's other parts (R56, R51). -/
theorem invariant_setMem {s : State} {m : Memory} (hI : Invariant s) (hm : m.wf = true) : Invariant (s.setMem m) :=
  ⟨hm, hI.2⟩

@[simp] theorem resetCore_pc (s : State) : (resetCore s).pc = 0x0200 := rfl
@[simp] theorem resetCore_stack (s : State) : (resetCore s).stack = Vector.replicate 16 0x0000 := rfl
@[simp] theorem resetCore_await (s : State) : (resetCore s).await = none := rfl
@[simp] theorem resetCore_mem (s : State) : (resetCore s).mem = s.mem := rfl

/-- RESET gives PC and the stack their values and ends a wait (R201). -/
theorem invariant_resetCore {s : State} (hm : s.mem.wf = true) : Invariant (resetCore s) := by
  refine ⟨hm, ?_, fun j => ?_, nofun⟩
  · rw [resetCore_pc]
    decide
  · rw [resetCore_stack, Vector.getElem_replicate]
    decide

/-- GLYPH_ROM lies in memory (R65). -/
theorem wf_powerOnMemory (rom : Vector Byte 80) : (powerOnMemory rom).wf = true :=
  Memory.wf_writeBytes rom.toList [] 0 (by simp [memSize]) Memory.wf_nil

/-- POWER_ON is RESET with another memory (R200). -/
theorem powerOn_eq (rom : Vector Byte 80) (s : State) : powerOn rom s = resetCore (s.setMem (powerOnMemory rom)) := rfl

/-- LOAD_PROGRAM, when it succeeds (R56). -/
theorem loadProgram_eq_ok {bytes : List Byte} {s t : State} :
    loadProgram bytes s = .ok t ↔
      programBase + bytes.length ≤ memSize ∧ t = s.setMem (s.mem.writeBytes programBase bytes) := by
  unfold loadProgram
  split
  · simp; omega
  · simp [eq_comm]; omega

/-- LOAD_PROGRAM faults in one way only (R174). -/
theorem loadProgram_eq_error {bytes : List Byte} {s : State} {f : Fault} :
    loadProgram bytes s = .error f ↔ memSize < programBase + bytes.length ∧ f = .programTooLarge := by
  unfold loadProgram
  split
  · simp [eq_comm]; omega
  · simp; omega

/-- KEY_DELIVER to a waiting register (R163). -/
theorem keyDeliver_waiting {k : Nibble} {s : State} {r : RegIdx} (h : s.await = some r) :
    keyDeliver k s = ((s.setReg r (k.setWidth 8)).advance).setAwait none := by
  simp [keyDeliver, h]

/-- KEY_DELIVER with no wait pending (R163). -/
theorem keyDeliver_idle {k : Nibble} {s : State} (h : s.await = none) : keyDeliver k s = s := by
  simp [keyDeliver, h]

theorem invariant_keyDeliver {k : Nibble} {s : State} (hI : Invariant s) : Invariant (keyDeliver k s) := by
  cases ha : s.await with
  | none => rw [keyDeliver_idle ha]; exact hI
  | some r =>
    obtain ⟨hwf, -, hstack, hwait⟩ := hI
    have hpc : s.pc.toNat ≤ 0xFFE := hwait (ha ▸ rfl)
    rw [keyDeliver_waiting ha]
    refine ⟨hwf, ?_, hstack, nofun⟩
    rw [State.setAwait_pc, State.advance_pc, State.setReg_pc]
    bv_omega

/-- An operation that can only fault or succeed, and keeps the invariant when it succeeds. -/
theorem invariant_replyOf {s : State} {r : Except Fault State} (hI : Invariant s)
    (hr : ∀ t, r = .ok t → Invariant t) : Invariant (replyOf s r).2 := by
  cases r with
  | ok t => exact hr t rfl
  | error f => exact hI

theorem invariant_replyOfStep {s : State} (hI : Invariant s) : Invariant (replyOfStep s).2 := by
  unfold replyOfStep
  split
  · exact hI
  · split
    next hs => exact step_invariant hI hs
    · exact hI
    · exact hI

/-- Every operation keeps the invariant. -/
theorem perform_invariant (op : Operation) {s : State} (hI : Invariant s) : Invariant (perform op s).2 := by
  cases op with
  | powerOn rom =>
    show Invariant (powerOn rom s)
    rw [powerOn_eq]
    exact invariant_resetCore (wf_powerOnMemory rom)
  | reset => exact invariant_resetCore hI.1
  | loadProgram bytes =>
    refine invariant_replyOf hI fun t ht => ?_
    obtain ⟨hle, rfl⟩ := loadProgram_eq_ok.mp ht
    exact invariant_setMem hI (Memory.wf_writeBytes bytes s.mem programBase hle hI.1)
  | step => exact invariant_replyOfStep hI
  | tick => exact hI
  | keyDeliver k => exact invariant_keyDeliver hI
  | memRead a => rw [perform_memRead_snd]; exact hI
  | memWrite a b =>
    refine invariant_replyOf hI fun t ht => ?_
    obtain ⟨ha, rfl⟩ := State.memWrite_eq_ok.mp ht
    exact invariant_setMem hI (Memory.wf_write s.mem a b ha hI.1)

/-! ## A pending key wait -/

/-- With no wait pending there is nothing to point at. -/
theorem waitAtItsInstruction_of_none {s : State} (h : s.await = none) : WaitAtItsInstruction s := by
  intro r hr
  cases h.symm.trans hr

/-- What a wait points at depends on AWAIT, PC and memory only. -/
theorem WaitAtItsInstruction.congr {s t : State} (h : WaitAtItsInstruction s) (ha : t.await = s.await)
    (hpc : t.pc = s.pc) (hm : t.mem = s.mem) : WaitAtItsInstruction t := by
  intro r hr
  rw [State.fetch_congr hpc hm]
  exact h r (ha ▸ hr)

end Sys2Proof.Machine

open Sys2Proof Sys2Proof.Machine

/-! ## The obligations -/

/-- Settles O12: the state after power-on is RESET's value of itself. -/
theorem resetMeetsTheInvariant : Obligations.ResetMeetsTheInvariant :=
  ⟨invariant_resetCore (s := State.reset) Memory.wf_nil, rfl, waitAtItsInstruction_of_none rfl⟩

/-- Settles O13, by the case of the step and, for an executed instruction, the invariant part by part. -/
theorem everyStepKeepsTheInvariant : Obligations.EveryStepKeepsTheInvariant := fun _ _ => step_invariant

/-- Settles O14, by induction on the list of operations. -/
theorem everyRunOfOperationsKeepsTheInvariant : Obligations.EveryRunOfOperationsKeepsTheInvariant := by
  intro ops
  induction ops with
  | nil => exact fun s hI => hI
  | cons op ops ih => exact fun s hI => ih _ (perform_invariant op hI)

/-- Settles O15: a step enters a wait only by the Fx0A it fetched, and leaves PC and memory there; a tick touches neither,
a key event and RESET leave no wait. -/
theorem keyWaitStaysAtItsInstruction : Obligations.KeyWaitStaysAtItsInstruction := by
  intro s hW
  refine ⟨fun t h => ?_, hW.congr rfl rfl rfl, fun k => ?_, waitAtItsInstruction_of_none (resetCore_await s)⟩
  · obtain ⟨-, rfl⟩ | ⟨w, i, ha, -, hf, hd, he⟩ := step_eq_next h
    · exact hW
    obtain ha' | ⟨x, rfl, rfl⟩ := exec_await he
    · exact waitAtItsInstruction_of_none (ha'.trans ha)
    · intro r hr
      cases hr
      exact ⟨w, hf, hd⟩
  · cases ha : s.await with
    | none => rw [keyDeliver_idle ha]; exact hW
    | some r => rw [keyDeliver_waiting ha]; exact waitAtItsInstruction_of_none rfl
end

section
/-! PROOFS. The control transfers (spec/40_flow.md): jumps, skips, and the call stack. -/

namespace Sys2Proof.Machine

/-- A skip on equality (R105, R107). -/
theorem skipIf_beq_spec (s : State) (a b : Byte) : ∃ t, (.next (s.skipIf (a == b)) : Result) = .next t ∧
    (a = b → t.pc = s.pc + 4) ∧ (a ≠ b → t.pc = s.pc + 2) ∧ t.reg vf = s.reg vf :=
  ⟨_, rfl, fun h => by simp [h], fun h => by simp [h], rfl⟩

/-- A skip on difference (R106, R108). -/
theorem skipIf_bne_spec (s : State) (a b : Byte) : ∃ t, (.next (s.skipIf (a != b)) : Result) = .next t ∧
    (a ≠ b → t.pc = s.pc + 4) ∧ (a = b → t.pc = s.pc + 2) ∧ t.reg vf = s.reg vf :=
  ⟨_, rfl, fun h => by simp [h], fun h => by simp [h], rfl⟩

/-- A call below depth 16 (R103). -/
theorem exec_call_of_lt {nnn : Addr12} {s : State} {j : Fin 16} (hj : s.sp.val = j.val) :
    ∃ t, exec (.call nnn) s = .next t ∧ t.pc.toNat = nnn.toNat ∧ t.sp.val = j.val + 1 ∧ t.stack[j.val] = s.pc + 2 ∧
      OnlyChanges (fun p => p = .pc ∨ p = .depth ∨ p = .slot j) s t := by
  have h := (execCall_eq_next (nnn := nnn)).mpr ⟨hj ▸ j.isLt, rfl⟩
  refine ⟨_, h, toNat_zextAddr nnn, congrArg (· + 1) hj, ?_, (exec_onlyChanges (i := .call nnn) h).mono ?_⟩
  · simp [hj]
  · rintro p (hp | hp | ⟨k, hp, hk⟩)
    · exact .inl hp
    · exact .inr (.inl hp)
    · exact .inr (.inr (hp.trans (congrArg Part.slot (Fin.ext (hk.symm.trans hj)))))

/-- A return from depth j + 1 (R101). -/
theorem exec_ret_of_pos {s : State} {j : Fin 16} (hj : s.sp.val = j.val + 1) :
    ∃ t, exec .ret s = .next t ∧ t.pc = s.stack[j.val] ∧ t.sp.val = j.val ∧ t.stack = s.stack ∧
      t.reg vf = s.reg vf := by
  refine ⟨_, execRet_eq_next.mpr ⟨by omega, rfl⟩, ?_, ?_, rfl, rfl⟩
  · simp [hj]
  · simp [hj]

/-- The first of a list of instructions ends in a next state. -/
theorem execAll_cons_next {i : Instr} {is : List Instr} {s t : State} (h : exec i s = .next t) :
    execAll (i :: is) s = execAll is t := by
  simp [execAll, h]

/-- The first of a list of instructions faults. -/
theorem execAll_cons_fault {i : Instr} {is : List Instr} {s : State} {f : Fault} (h : exec i s = .fault f) :
    execAll (i :: is) s = .fault f := by
  simp [execAll, h]

end Sys2Proof.Machine

open Sys2Proof Sys2Proof.Machine

/-! ## The obligations -/

/-- Settles O22, by the two ways 00EE ends. -/
theorem returnPopsTheStackIntoPc : Obligations.ReturnPopsTheStackIntoPc := fun _ =>
  ⟨fun h => execRet_eq_fault.mpr ⟨h, rfl⟩, fun _ => exec_ret_of_pos⟩

/-- Settles O23: a 12-bit address and a byte add up without a carry out of 16 bits. -/
theorem jumpsSetPcToTheirTargets : Obligations.JumpsSetPcToTheirTargets := by
  intro nnn s
  refine ⟨⟨_, rfl, toNat_zextAddr nnn, rfl, rfl, rfl⟩, ⟨_, rfl, ?_, rfl, rfl, rfl⟩⟩
  have := toNat_zextAddr nnn
  have := toNat_zextByte (s.reg v0)
  rw [State.setPc_pc]
  bv_omega

/-- Settles O24, by the two ways 2nnn ends. -/
theorem callPushesTheReturnAddress : Obligations.CallPushesTheReturnAddress := fun _ _ =>
  ⟨fun h => execCall_eq_fault.mpr ⟨h, rfl⟩, fun _ => exec_call_of_lt⟩

/-- Settles O25, by the two outcomes of the comparison with kk. -/
theorem skipsOnAnImmediate : Obligations.SkipsOnAnImmediate := fun x kk s =>
  ⟨skipIf_beq_spec s (s.reg x) kk, skipIf_bne_spec s (s.reg x) kk⟩

/-- Settles O26, by the two outcomes of the comparison with Vy. -/
theorem skipsOnTwoRegisters : Obligations.SkipsOnTwoRegisters := fun x y s =>
  ⟨skipIf_beq_spec s (s.reg x) (s.reg y), skipIf_bne_spec s (s.reg x) (s.reg y)⟩

/-- Settles O27: the call leaves PC + 2 in slot j, which the return from depth j + 1 takes; the two frames compose, and the
depth is back. -/
theorem callThenReturnComesBack : Obligations.CallThenReturnComesBack := by
  intro nnn s j hj
  obtain ⟨t, ht, -, htsp, htslot, htframe⟩ := exec_call_of_lt (nnn := nnn) hj
  obtain ⟨u, hu, hupc, husp, -, -⟩ := exec_ret_of_pos htsp
  have hsp : u.sp = s.sp := Fin.ext (husp.trans hj.symm)
  refine ⟨t, u, ht, hu, hupc.trans htslot, hsp, fun p hp => ?_⟩
  by_cases hd : p = .depth
  · exact hd ▸ hsp
  · refine (htframe p ?_).trans (exec_onlyChanges hu p ?_)
    · exact fun h => h.elim (fun h => hp (.inl h)) fun h => h.elim hd fun h => hp (.inr h)
    · exact fun h => h.elim (fun h => hp (.inl h)) hd

/-- Settles O28, by induction on the targets: a call below depth 16 leaves the rest one level deeper, a call at depth 16
ends the list. -/
theorem callsSucceedUpToDepthSixteen : Obligations.CallsSucceedUpToDepthSixteen := by
  intro targets
  induction targets with
  | nil => exact fun s => ⟨fun _ => ⟨s, rfl, rfl⟩, fun h => absurd s.sp.isLt (by simp at h; omega)⟩
  | cons nnn targets ih =>
    intro s
    rw [List.map_cons, List.length_cons]
    by_cases hd : s.sp.val < 16
    · obtain ⟨t, ht, -, hsp, -, -⟩ := exec_call_of_lt (nnn := nnn) (j := ⟨s.sp.val, hd⟩) rfl
      have hlen : s.sp.val + (targets.length + 1) = t.sp.val + targets.length := by rw [hsp, Nat.add_right_comm]; rfl
      rw [execAll_cons_next ht, hlen]
      exact ih t
    · have hfault := execCall_eq_fault (nnn := nnn).mpr ⟨show s.sp.val = 16 by omega, rfl⟩
      exact ⟨fun h => absurd h (by omega), fun _ => execAll_cons_fault hfault⟩
end

section
/-! PROOFS. Register loads and the ALU (spec/41_alu.md), and the index register (spec/42_index_memory.md): one lemma for
each of the two shapes, then each instruction by the number of its result. -/

namespace Sys2Proof.Machine

/-- The shape that writes one register (R8). -/
theorem writeAndAdvance_spec (s : State) (x : RegIdx) (b : Byte) :
    ∃ t, s.writeAndAdvance x b = .next t ∧ t.reg x = b ∧ t.pc = s.pc + 2 ∧ (x ≠ vf → t.reg vf = s.reg vf) := by
  refine ⟨_, rfl, ?_, rfl, fun hx => ?_⟩
  · rw [State.reg_advance, State.reg_setReg_same]
  · rw [State.reg_advance, State.reg_setReg_other s b hx.symm]

/-- The shape that writes a result and the flag (R133). -/
theorem flagAndAdvance_spec (s : State) (x : RegIdx) (b : Byte) (f : Bool) :
    ∃ t, s.flagAndAdvance x b f = .next t ∧ (x ≠ vf → t.reg x = b) ∧ t.reg vf = flagByte f ∧ t.pc = s.pc + 2 ∧
      OnlyChanges (fun p => p = .pc ∨ p = .reg x ∨ p = .reg vf) s t := by
  refine ⟨_, rfl, fun hx => ?_, ?_, rfl, (setResultAndFlag_onlyChanges s x b f).advance⟩
  · rw [State.reg_advance, State.reg_setResultAndFlag, if_neg hx, if_pos rfl]
  · rw [State.reg_advance, State.reg_setResultAndFlag, if_pos rfl]

/-- The carry as the byte VF takes (R126). -/
theorem flagByte_addCarry_pos {a b : Byte} (h : a.toNat + b.toNat > 255) : flagByte (addCarry a b) = 0x01 := by
  rw [addCarry, decide_eq_true h, flagByte_true]

theorem flagByte_addCarry_neg {a b : Byte} (h : a.toNat + b.toNat ≤ 255) : flagByte (addCarry a b) = 0x00 := by
  rw [addCarry, decide_eq_false (Nat.not_lt.mpr h), flagByte_false]

/-- No borrow as the byte VF takes (R132). -/
theorem flagByte_noBorrow_pos {a b : Byte} (h : b.toNat ≤ a.toNat) : flagByte (noBorrow a b) = 0x01 := by
  rw [noBorrow, decide_eq_true h, flagByte_true]

theorem flagByte_noBorrow_neg {a b : Byte} (h : a.toNat < b.toNat) : flagByte (noBorrow a b) = 0x00 := by
  rw [noBorrow, decide_eq_false (Nat.not_le.mpr h), flagByte_false]

/-- A masked byte has no bit outside the mask. -/
theorem and_mask_and_not (r kk : Byte) : r &&& kk &&& ~~~kk = 0x00 := by
  ext k hk
  simp

end Sys2Proof.Machine

open Sys2Proof Sys2Proof.Machine

/-! ## The obligations -/

/-- Settles O29, by the shape that writes one register. -/
theorem immediateLoadAndAdd : Obligations.ImmediateLoadAndAdd := by
  intro x kk s
  refine ⟨writeAndAdvance_spec s x kk, ?_⟩
  obtain ⟨t, ht, hx, hpc, hvf⟩ := writeAndAdvance_spec s x (addResult (s.reg x) kk)
  exact ⟨t, ht, by rw [hx, toNat_addResult], hpc, hvf⟩

/-- Settles O30, by the shape that writes one register; the bits of the result are those of the operands. -/
theorem assignOrAndXor : Obligations.AssignOrAndXor := by
  intro x y s
  refine ⟨writeAndAdvance_spec s x (s.reg y), ?_, ?_, ?_⟩
  · obtain ⟨t, ht, hx, hpc, hvf⟩ := writeAndAdvance_spec s x (s.reg x ||| s.reg y)
    exact ⟨t, ht, hpc, hvf, fun k => by rw [hx, BitVec.getLsbD_or]⟩
  · obtain ⟨t, ht, hx, hpc, hvf⟩ := writeAndAdvance_spec s x (s.reg x &&& s.reg y)
    exact ⟨t, ht, hpc, hvf, fun k => by rw [hx, BitVec.getLsbD_and]⟩
  · obtain ⟨t, ht, hx, hpc, hvf⟩ := writeAndAdvance_spec s x (s.reg x ^^^ s.reg y)
    exact ⟨t, ht, hpc, hvf, fun k => by rw [hx, BitVec.getLsbD_xor]⟩

/-- Settles O31, by the shape that writes a result and the flag. -/
theorem addSetsSumAndCarry : Obligations.AddSetsSumAndCarry := by
  intro x y s
  obtain ⟨t, ht, hx, hvf, hpc, hframe⟩ := flagAndAdvance_spec s x _ (addCarry (s.reg x) (s.reg y))
  exact ⟨t, ht, fun h => by rw [hx h, toNat_addResult], fun h => hvf.trans (flagByte_addCarry_pos h),
    fun h => hvf.trans (flagByte_addCarry_neg h), hpc, hframe⟩

/-- Settles O32, by the shape that writes a result and the flag. -/
theorem subSetsDifferenceAndNoBorrow : Obligations.SubSetsDifferenceAndNoBorrow := by
  intro x y s
  obtain ⟨t, ht, hx, hvf, hpc, hframe⟩ := flagAndAdvance_spec s x _ (noBorrow (s.reg x) (s.reg y))
  exact ⟨t, ht, fun h => by rw [hx h, toNat_subResult], fun h => hvf.trans (flagByte_noBorrow_pos h),
    fun h => hvf.trans (flagByte_noBorrow_neg h), hpc, hframe⟩

/-- Settles O33, by the shape that writes a result and the flag. -/
theorem shiftRightHalvesAndEvicts : Obligations.ShiftRightHalvesAndEvicts := by
  intro x y s
  obtain ⟨t, ht, hx, hvf, hpc, hframe⟩ := flagAndAdvance_spec s x _ (shrFlag (s.reg x))
  exact ⟨t, ht, fun h => by rw [hx h, toNat_shrResult], by rw [hvf, toNat_flagByte_shrFlag], hpc, hframe⟩

/-- Settles O34, by the shape that writes a result and the flag. -/
theorem subnSetsReverseDifference : Obligations.SubnSetsReverseDifference := by
  intro x y s
  obtain ⟨t, ht, hx, hvf, hpc, hframe⟩ := flagAndAdvance_spec s x _ (noBorrow (s.reg y) (s.reg x))
  exact ⟨t, ht, fun h => by rw [hx h, toNat_subResult], fun h => hvf.trans (flagByte_noBorrow_pos h),
    fun h => hvf.trans (flagByte_noBorrow_neg h), hpc, hframe⟩

/-- Settles O35, by the shape that writes a result and the flag. -/
theorem shiftLeftDoublesAndEvicts : Obligations.ShiftLeftDoublesAndEvicts := by
  intro x y s
  obtain ⟨t, ht, hx, hvf, hpc, hframe⟩ := flagAndAdvance_spec s x _ (shlFlag (s.reg x))
  exact ⟨t, ht, fun h => by rw [hx h, toNat_shlResult], by rw [hvf, toNat_flagByte_shlFlag], hpc, hframe⟩

/-- Settles O36, for every draw: Vx is the draw masked, so its facts are facts about a mask. -/
theorem randomByteIsMasked : Obligations.RandomByteIsMasked := by
  intro x kk s
  have hx : ((s.noteRandDraw.setReg x (Config.randByte s.randDraws &&& kk)).advance).reg x =
      Config.randByte s.randDraws &&& kk := by
    rw [State.reg_advance, State.reg_setReg_same]
  refine ⟨_, rfl, hx, ?_, ?_, rfl, rfl, exec_onlyChanges (i := .rndVxKk x kk) rfl⟩
  · rw [hx, and_mask_and_not]
  · rw [hx, BitVec.toNat_and]
    exact Nat.and_le_right

/-- Settles O37. -/
theorem loadIndexSetsI : Obligations.LoadIndexSetsI := fun nnn _ => ⟨_, rfl, toNat_zextAddr nnn, rfl, rfl⟩

/-- Settles O38: the sum of two words is taken modulo 65536. -/
theorem addToIndexWrapsAtSixteenBits : Obligations.AddToIndexWrapsAtSixteenBits := by
  intro x s
  refine ⟨_, rfl, ?_, rfl, exec_onlyChanges (i := .addIVx x) rfl⟩
  rw [State.advance_i, State.setIndex_i, BitVec.toNat_add, toNat_zextByte]

/-- Settles O39: the digit is at most 15, so its glyph starts at 75 at most. -/
theorem glyphAddressIsFiveTimesTheDigit : Obligations.GlyphAddressIsFiveTimesTheDigit := by
  intro x s
  have hi : (glyphAddress (lowNibble (s.reg x))).toNat = 5 * ((s.reg x).toNat % 16) := by
    rw [toNat_glyphAddress, val_lowNibble]
  refine ⟨_, rfl, hi, ?_, rfl, exec_onlyChanges (i := .ldFVx x) rfl⟩
  rw [State.advance_i, State.setIndex_i, hi]
  omega
end

section
/-! PROOFS. Loads and stores (spec/42_index_memory.md), and what reset, power-on and a program load leave in memory
(spec/20_memory.md section 7, spec/70_reset_and_hazards.md section 1). -/

namespace Sys2Proof.Machine

/-- The k-th byte of a run of writes, read back. -/
theorem Memory.read_writeBytes_add (m : Memory) (a : Nat) {xs : List Byte} {k : Nat} (h : k < xs.length) :
    (m.writeBytes a xs).read (a + k) = xs[k] := by
  rw [Memory.read_writeBytes, dif_pos ⟨by omega, by omega⟩]
  simp

/-! ## Fx33 and Fx55: a run of bytes stored at I -/

/-- A run that lies between the guard and the end of memory is stored whole (R55). -/
theorem storeAndAdvance_spec {s : State} {xs : List Byte} (hlo : 0x050 ≤ s.base) (hhi : s.base + xs.length ≤ 4096) :
    ∃ t, s.storeAndAdvance xs = .next t ∧ (∀ (k : Nat) (h : k < xs.length), t.mem.read (s.base + k) = xs[k]) ∧
      t.pc = s.pc + 2 :=
  ⟨_, State.storeAndAdvance_eq_next.mpr ⟨.inr ⟨hlo, hhi⟩, rfl⟩, fun _ h => Memory.read_writeBytes_add s.mem s.base h, rfl⟩

/-- A run that starts below the guard or passes the end of memory faults (R55, R64). -/
theorem storeAndAdvance_fault {s : State} {xs : List Byte} (hxs : 1 ≤ xs.length)
    (h : s.base ≤ 0x04F ∨ 4096 < s.base + xs.length) : s.storeAndAdvance xs = .fault .addressOutOfRange :=
  State.storeAndAdvance_eq_fault.mpr ⟨⟨hxs, h.imp_left Nat.lt_succ_of_le⟩, rfl⟩

/-! ## Reset and power-on -/

/-- Above the glyph region an unlisted address reads as 0 (R65). -/
theorem Memory.unlisted_of_le {a : Nat} (h : 0x050 ≤ a) : Memory.unlisted a = 0x00 :=
  List.getD_eq_default _ _ h

theorem reg_resetCore (s : State) (r : RegIdx) : (resetCore s).reg r = 0x00 := Vector.getElem_replicate r.isLt

theorem pixel_resetCore (s : State) (row col : Nat) : (resetCore s).fb.pixel row col = false :=
  Display.pixel_blank row col

/-- The glyph table in memory (R65). -/
theorem read_powerOnMemory_glyph (rom : Vector Byte 80) (a : Fin 80) : (powerOnMemory rom).read a.val = rom[a.val] := by
  have h := Memory.read_writeBytes_add [] 0 (xs := rom.toList) (k := a.val) (by simp)
  rwa [Nat.zero_add, Vector.getElem_toList] at h

/-- Zeros above the glyph table (R65). -/
theorem read_powerOnMemory_above (rom : Vector Byte 80) {a : Nat} (h : 0x050 ≤ a) : (powerOnMemory rom).read a = 0x00 := by
  rw [powerOnMemory, Memory.read_writeBytes, dif_neg (by simp; omega)]
  exact Memory.unlisted_of_le h

/-! ## A program load -/

/-- A program of up to 0xE00 bytes is written from 0x200 up (R56). -/
theorem perform_loadProgram_ok {bytes : List Byte} {s : State} (h : bytes.length ≤ 0xE00) :
    ∃ t, perform (.loadProgram bytes) s = (.ok, t) ∧
      (∀ (k : Nat) (h : k < bytes.length), t.mem.read (0x200 + k) = bytes[k]) ∧
      OnlyChanges (fun p => ∃ a, p = .byte a ∧ 0x200 ≤ a ∧ a < 0x200 + bytes.length) s t :=
  ⟨_, congrArg (replyOf s) (loadProgram_eq_ok.mpr ⟨Nat.add_le_add_left h 0x200, rfl⟩),
    fun _ h => Memory.read_writeBytes_add s.mem 0x200 h, writeBytes_onlyChanges s 0x200 bytes⟩

/-- A longer one is refused whole (R174). -/
theorem perform_loadProgram_fault {bytes : List Byte} {s : State} (h : 0xE00 < bytes.length) :
    perform (.loadProgram bytes) s = (.fault .programTooLarge, s) :=
  congrArg (replyOf s) (loadProgram_eq_error.mpr ⟨Nat.add_lt_add_left h 0x200, rfl⟩)

end Sys2Proof.Machine

open Sys2Proof Sys2Proof.Machine

/-! ## The obligations -/

/-- Settles O40: the three digits are stored as a run of three bytes. -/
theorem bcdStoresThreeDigits : Obligations.BcdStoresThreeDigits := by
  intro x s
  have hdigits := bcdDigits_toNat (s.reg x)
  simp only [bcdDigits, List.map_cons, List.map_nil, List.cons.injEq, and_true] at hdigits
  obtain ⟨h0, h1, h2⟩ := hdigits
  refine ⟨fun hlo hhi => ?_, fun h => storeAndAdvance_fault (xs := bcdDigits (s.reg x)) (by simp [bcdDigits]) ?_⟩
  · obtain ⟨t, ht, hread, hpc⟩ := storeAndAdvance_spec (xs := bcdDigits (s.reg x)) hlo (by simp [bcdDigits]; omega)
    exact ⟨t, ht, (congrArg BitVec.toNat (hread 0 (by simp [bcdDigits]))).trans h0,
      (congrArg BitVec.toNat (hread 1 (by simp [bcdDigits]))).trans h1,
      (congrArg BitVec.toNat (hread 2 (by simp [bcdDigits]))).trans h2, hpc, exec_onlyChanges (i := .ldBVx x) ht⟩
  · simp only [bcdDigits, List.length_cons, List.length_nil]
    omega

/-- Settles O41: V0 to Vx are stored as a run of x + 1 bytes. -/
theorem blockStoreWritesV0ToVx : Obligations.BlockStoreWritesV0ToVx := by
  intro x s
  refine ⟨fun hlo hhi => ?_, fun h => storeAndAdvance_fault (xs := s.regsUpTo x) (by simp) ?_⟩
  · obtain ⟨t, ht, hread, hpc⟩ := storeAndAdvance_spec (xs := s.regsUpTo x) hlo (by simp; omega)
    refine ⟨t, ht, fun r hr => ?_, hpc, exec_onlyChanges (i := .ldMiVx x) ht⟩
    rw [hread r.val (by simp; omega), State.getElem_regsUpTo]
    rfl
  · rw [State.length_regsUpTo]
    omega

/-- Settles O42: the registers are filled from a run of x + 1 bytes read at I. -/
theorem blockLoadReadsV0ToVx : Obligations.BlockLoadReadsV0ToVx := by
  intro x s
  refine ⟨fun h => ?_, fun h => execLdVxMi_eq_fault.mpr ⟨Nat.lt_succ_of_le h, rfl⟩⟩
  have ht := execLdVxMi_eq_next.mpr ⟨(h : s.base + (x.val + 1) ≤ memSize), rfl⟩
  refine ⟨_, ht, fun r hr => ?_, fun hx => ?_, rfl, fun a => rfl, rfl⟩
  · have hfill := getElem_fillRegs (s.mem.readBytes s.base (x.val + 1)) s.v 0 r.val r.isLt
    rw [dif_pos ⟨Nat.zero_le _, by rw [Memory.length_readBytes]; omega⟩, Memory.getElem_readBytes] at hfill
    exact hfill
  · refine exec_onlyChanges (i := .ldVxMi x) ht (.reg vf) fun hm => hx ?_
    exact mayWriteVf_of_mayChange hm

/-- Settles O43: the load reads, from where the store put them, the bytes the store wrote. -/
theorem blockStoreThenLoadRestores : Obligations.BlockStoreThenLoadRestores := by
  intro x s t u h hmem hi
  have hbase : u.base = s.base := congrArg BitVec.toNat hi
  obtain ⟨hlo, hhi, -⟩ := storeAndAdvance_mem (xs := s.regsUpTo x) (by simp) h
  rw [State.length_regsUpTo] at hhi
  obtain ⟨t', ht', hstored, -, -⟩ := (blockStoreWritesV0ToVx x s).1 hlo hhi
  cases h.symm.trans ht'
  obtain ⟨w, hw, hloaded, -⟩ := (blockLoadReadsV0ToVx x u).1 (hbase ▸ hhi)
  exact ⟨w, hw, fun r hr => by rw [hloaded r hr, hmem, hbase, hstored r hr]⟩

/-- Settles O54: RESET's values, and POWER_ON as RESET over the glyph table and zeros. -/
theorem resetAndPowerOnValues : Obligations.ResetAndPowerOnValues := fun rom s =>
  ⟨reg_resetCore s, rfl, rfl, rfl, fun j => Vector.getElem_replicate j.isLt, rfl, rfl, pixel_resetCore s, rfl, fun _ => rfl,
    rfl, read_powerOnMemory_glyph rom, fun _ => read_powerOnMemory_above rom⟩

/-- Settles O55, by the two ways a load ends. -/
theorem loadProgramWritesOrFails : Obligations.LoadProgramWritesOrFails := fun _ _ =>
  ⟨perform_loadProgram_ok, perform_loadProgram_fault⟩

/-- Settles O56: the load puts the two bytes at 0x200 and 0x201, where RESET points PC. -/
theorem firstFetchIsTheProgramsFirstWord : Obligations.FirstFetchIsTheProgramsFirstWord := by
  intro rom b0 b1 rest s hlen
  obtain ⟨u, hu, hread, -⟩ := perform_loadProgram_ok (bytes := b0 :: b1 :: rest) (s := powerOn rom s) hlen
  have ht : performAll [.powerOn rom, .loadProgram (b0 :: b1 :: rest), .reset] s = resetCore u :=
    congrArg (fun p : Reply × State => resetCore p.2) hu
  rw [ht]
  refine ⟨rfl, State.fetch_eq_ok.mpr ⟨?_, ?_⟩⟩
  · rw [resetCore_pc]
    decide
  · rw [resetCore_mem, resetCore_pc]
    exact (congrArg₂ wordOfBytes (hread 0 (by simp)) (hread 1 (by simp))).symm
end

section
/-! PROOFS. The display (spec/43_display.md). A sprite is drawn as the list of its cells, the coordinates under a 1 bit; no
two cells of a sprite are the same pixel, since it is at most 15 rows by 8 columns, so each covered pixel is flipped once and
tested for collision at its value before the draw. -/

namespace Sys2Proof.Machine

/-! ## The cells of a sprite -/

/-- The coordinates under the 1 bits of one row byte (R151). -/
def rowCells (b : Byte) (row h0 : Nat) : List (Nat × Nat) :=
  ((List.range 8).filter fun c => b.getLsbD (7 - c)).map fun c => (row, h0 + c)

/-- The coordinates under the 1 bits of a sprite's rows (R151). -/
def spriteCells : List Byte → Nat → Nat → List (Nat × Nat)
  | [], _, _ => []
  | b :: bs, row, h0 => rowCells b row h0 ++ spriteCells bs (row + 1) h0

/-- The pixels at a list of coordinates, drawn in order. -/
def drawCells (cells : List (Nat × Nat)) (d : Display × Bool) : Display × Bool :=
  cells.foldl (fun d p => drawPixel d p.1 p.2) d

/-- Two coordinates name one pixel after wraparound (R34). -/
def SamePixel (p q : Nat × Nat) : Prop := q.1 % 32 = p.1 % 32 ∧ q.2 % 64 = p.2 % 64

theorem drawRow_eq_drawCells (b : Byte) (row h0 : Nat) (d : Display × Bool) :
    drawRow b row h0 d = drawCells (rowCells b row h0) d := by
  rw [drawCells, rowCells, List.foldl_map, List.foldl_filter]
  rfl

theorem drawRows_eq_drawCells (bs : List Byte) : ∀ (row h0 : Nat) (d : Display × Bool),
    drawRows bs row h0 d = drawCells (spriteCells bs row h0) d := by
  induction bs with
  | nil => exact fun _ _ _ => rfl
  | cons b bs ih =>
    intro row h0 d
    rw [drawRows, ih, drawRow_eq_drawCells, spriteCells, drawCells, drawCells, drawCells, List.foldl_append]

theorem mem_rowCells {b : Byte} {row h0 : Nat} {p : Nat × Nat} :
    p ∈ rowCells b row h0 ↔ ∃ c, c < 8 ∧ b.getLsbD (7 - c) = true ∧ (row, h0 + c) = p := by
  simp only [rowCells, List.mem_map, List.mem_filter, List.mem_range, and_assoc]

theorem mem_spriteCells {bs : List Byte} : ∀ {row h0 : Nat} {p : Nat × Nat},
    p ∈ spriteCells bs row h0 ↔
      ∃ (r c : Nat) (hr : r < bs.length), c < 8 ∧ bs[r].getLsbD (7 - c) = true ∧ (row + r, h0 + c) = p := by
  induction bs with
  | nil => simp [spriteCells]
  | cons b bs ih =>
    intro row h0 p
    rw [spriteCells, List.mem_append, mem_rowCells, ih]
    constructor
    · rintro (⟨c, hc, hb, hp⟩ | ⟨r, c, hr, hc, hb, hp⟩)
      · exact ⟨0, c, Nat.succ_pos _, hc, hb, hp⟩
      · exact ⟨r + 1, c, Nat.succ_lt_succ hr, hc, hb, by rw [← hp, Nat.add_assoc, Nat.add_comm 1]⟩
    · rintro ⟨_ | r, c, hr, hc, hb, hp⟩
      · exact .inl ⟨c, hc, hb, hp⟩
      · exact .inr ⟨r, c, Nat.lt_of_succ_lt_succ hr, hc, hb, by rw [← hp, Nat.add_assoc, Nat.add_comm 1]⟩

/-- The cells of a row differ in their columns, which lie within 8. -/
theorem pairwise_rowCells (b : Byte) (row h0 : Nat) : (rowCells b row h0).Pairwise fun p q => ¬ SamePixel p q := by
  rw [rowCells, List.pairwise_map]
  refine (List.pairwise_lt_range.filter _).imp_of_mem fun {c e} hc he hlt => ?_
  have he' := List.mem_range.mp (List.mem_of_mem_filter he)
  rintro ⟨-, hcol⟩
  omega

/-- The cells of a sprite of at most 32 rows are pairwise different pixels. -/
theorem pairwise_spriteCells (bs : List Byte) : ∀ (row h0 : Nat), bs.length ≤ 32 →
    (spriteCells bs row h0).Pairwise fun p q => ¬ SamePixel p q := by
  induction bs with
  | nil => exact fun _ _ _ => .nil
  | cons b bs ih =>
    intro row h0 hlen
    rw [List.length_cons] at hlen
    refine List.pairwise_append.mpr ⟨pairwise_rowCells b row h0, ih _ _ (by omega), fun p hp q hq => ?_⟩
    obtain ⟨c, -, -, rfl⟩ := mem_rowCells.mp hp
    obtain ⟨r, e, hr, -, -, rfl⟩ := mem_spriteCells.mp hq
    rintro ⟨hrow, -⟩
    simp only at hrow
    omega

/-! ## Drawing a list of cells -/

theorem pixel_drawPixel_same {p q : Nat × Nat} (d : Display × Bool) (h : SamePixel p q) :
    (drawPixel d p.1 p.2).1.pixel q.1 q.2 = !d.1.pixel q.1 q.2 :=
  (Display.pixel_flip d.1 p.1 p.2 q.1 q.2).trans (if_pos h)

theorem pixel_drawPixel_other {p q : Nat × Nat} (d : Display × Bool) (h : ¬ SamePixel p q) :
    (drawPixel d p.1 p.2).1.pixel q.1 q.2 = d.1.pixel q.1 q.2 :=
  (Display.pixel_flip d.1 p.1 p.2 q.1 q.2).trans (if_neg h)

/-- A pixel that is none of the cells is as before. -/
theorem pixel_drawCells_of_not {row col : Nat} (cells : List (Nat × Nat)) : ∀ (d : Display × Bool),
    (¬ ∃ p ∈ cells, SamePixel p (row, col)) → (drawCells cells d).1.pixel row col = d.1.pixel row col := by
  induction cells with
  | nil => exact fun _ _ => rfl
  | cons p cells ih =>
    intro d hnot
    rw [List.exists_mem_cons_iff] at hnot
    obtain ⟨hp, hcells⟩ := not_or.mp hnot
    exact (ih _ hcells).trans (pixel_drawPixel_other d hp)

/-- A pixel that is one of the cells is flipped once, the cells being different pixels. -/
theorem pixel_drawCells_of_mem {row col : Nat} (cells : List (Nat × Nat)) : ∀ (d : Display × Bool),
    (cells.Pairwise fun p q => ¬ SamePixel p q) → (∃ p ∈ cells, SamePixel p (row, col)) →
      (drawCells cells d).1.pixel row col = !d.1.pixel row col := by
  induction cells with
  | nil => simp
  | cons p cells ih =>
    intro d hpair hmem
    obtain ⟨hp, hpair⟩ := List.pairwise_cons.mp hpair
    by_cases hsame : SamePixel p (row, col)
    · have hnot : ¬ ∃ q ∈ cells, SamePixel q (row, col) := fun ⟨q, hq, hq'⟩ =>
        hp q hq ⟨hq'.1.symm.trans hsame.1, hq'.2.symm.trans hsame.2⟩
      exact (pixel_drawCells_of_not cells _ hnot).trans (pixel_drawPixel_same d hsame)
    · have hcells := ((List.exists_mem_cons_iff _ _ _).mp hmem).resolve_left hsame
      exact (ih _ hpair hcells).trans (congrArg (! ·) (pixel_drawPixel_other d hsame))

/-- The flag after drawing different pixels: one of them was lit before the draw, or the flag was set. -/
theorem flag_drawCells (cells : List (Nat × Nat)) : ∀ (d : Display × Bool),
    (cells.Pairwise fun p q => ¬ SamePixel p q) →
      ((drawCells cells d).2 = true ↔ d.2 = true ∨ ∃ p ∈ cells, d.1.pixel p.1 p.2 = true) := by
  induction cells with
  | nil => simp [drawCells]
  | cons p cells ih =>
    intro d hpair
    obtain ⟨hp, hpair⟩ := List.pairwise_cons.mp hpair
    have hrest : (∃ q ∈ cells, (drawPixel d p.1 p.2).1.pixel q.1 q.2 = true) ↔ ∃ q ∈ cells, d.1.pixel q.1 q.2 = true :=
      exists_congr fun q => and_congr_right fun hq => by rw [pixel_drawPixel_other d (hp q hq)]
    calc (drawCells (p :: cells) d).2 = true
        ↔ (d.2 || d.1.pixel p.1 p.2) = true ∨ ∃ q ∈ cells, (drawPixel d p.1 p.2).1.pixel q.1 q.2 = true := ih _ hpair
      _ ↔ d.2 = true ∨ ∃ q ∈ p :: cells, d.1.pixel q.1 q.2 = true := by
        rw [hrest, Bool.or_eq_true, List.exists_mem_cons_iff, or_assoc]

/-! ## What Dxyn draws -/

/-- The cells that Dxyn draws in the state s. -/
def cellsOf (x y : RegIdx) (n : Nibble) (s : State) : List (Nat × Nat) :=
  spriteCells (s.mem.readBytes s.base n.toNat) (s.reg y).toNat (s.reg x).toNat

theorem drawn_eq_drawCells (x y : RegIdx) (n : Nibble) (s : State) :
    drawn x y n s = drawCells (cellsOf x y n s) (s.fb, false) := drawRows_eq_drawCells _ _ _ _

theorem pairwise_cellsOf (x y : RegIdx) (n : Nibble) (s : State) :
    (cellsOf x y n s).Pairwise fun p q => ¬ SamePixel p q :=
  pairwise_spriteCells _ _ _ (by rw [Memory.length_readBytes]; omega)

theorem mem_cellsOf {x y : RegIdx} {n : Nibble} {s : State} {p : Nat × Nat} :
    p ∈ cellsOf x y n s ↔ ∃ r c, r < n.toNat ∧ c < 8 ∧ (s.mem.read (s.base + r)).getLsbD (7 - c) = true ∧
      ((s.reg y).toNat + r, (s.reg x).toNat + c) = p := by
  simp only [cellsOf, mem_spriteCells, Memory.getElem_readBytes, Memory.length_readBytes, exists_prop]

/-- A pixel is covered when it is one of the cells (R151, R152). -/
theorem spriteCovers_iff {x y : RegIdx} {n : Nibble} {s : State} {row : Fin 32} {col : Fin 64} :
    SpriteCovers x y n s row col ↔ ∃ p ∈ cellsOf x y n s, SamePixel p (row.val, col.val) := by
  simp only [mem_cellsOf, SamePixel, Nat.mod_eq_of_lt row.isLt, Nat.mod_eq_of_lt col.isLt]
  constructor
  · rintro ⟨r, c, hr, hc, hrow, hcol, hbit⟩
    exact ⟨_, ⟨r, c, hr, hc, hbit, rfl⟩, hrow.symm, hcol.symm⟩
  · rintro ⟨_, ⟨r, c, hr, hc, hbit, rfl⟩, hrow, hcol⟩
    exact ⟨r, c, hr, hc, hrow.symm, hcol.symm, hbit⟩

/-- The collision flag of Dxyn: a covered pixel was lit (R151). -/
theorem drawn_flag {x y : RegIdx} {n : Nibble} {s : State} :
    (drawn x y n s).2 = true ↔ ∃ row col, SpriteCovers x y n s row col ∧ s.fb.pixel row.val col.val = true := by
  rw [drawn_eq_drawCells, flag_drawCells _ _ (pairwise_cellsOf x y n s)]
  simp only [Bool.false_eq_true, false_or, spriteCovers_iff]
  constructor
  · rintro ⟨p, hp, hlit⟩
    refine ⟨⟨p.1 % 32, Nat.mod_lt _ (by decide)⟩, ⟨p.2 % 64, Nat.mod_lt _ (by decide)⟩, ⟨p, hp, ?_⟩, ?_⟩
    · exact ⟨Nat.mod_mod _ _, Nat.mod_mod _ _⟩
    · rw [Display.pixel_mod, hlit]
  · rintro ⟨row, col, ⟨p, hp, hrow, hcol⟩, hlit⟩
    refine ⟨p, hp, ?_⟩
    rw [← Display.pixel_mod, ← hrow, ← hcol, Display.pixel_mod, hlit]

/-- What a sprite covers depends on its coordinates, on I and on the bytes there. -/
theorem spriteCovers_congr {x y : RegIdx} {n : Nibble} {s t : State} (hx : t.reg x = s.reg x) (hy : t.reg y = s.reg y)
    (hi : t.i = s.i) (hm : ∀ a, t.mem.read a = s.mem.read a) (row : Fin 32) (col : Fin 64) :
    SpriteCovers x y n t row col ↔ SpriteCovers x y n s row col := by
  simp only [SpriteCovers, State.base, hx, hy, hi, hm]

/-- Displays that agree on the reduced coordinates agree on all (R34). -/
theorem Display.pixel_eq_of_fin {d e : Display}
    (h : ∀ (row : Fin 32) (col : Fin 64), d.pixel row.val col.val = e.pixel row.val col.val) (row col : Nat) :
    d.pixel row col = e.pixel row col := by
  rw [Display.ext_pixel h]

end Sys2Proof.Machine

open Sys2Proof Sys2Proof.Machine

/-! ## The obligations -/

/-- Settles O45: the display becomes the blank one. -/
theorem clearTurnsEveryPixelOff : Obligations.ClearTurnsEveryPixelOff := fun _ =>
  ⟨_, rfl, Display.pixel_blank, rfl, rfl, exec_onlyChanges (i := .cls) rfl⟩

/-- Settles O46: the covered pixels are the cells drawn, each once, and the flag is theirs. -/
theorem drawFlipsExactlyTheCoveredPixels : Obligations.DrawFlipsExactlyTheCoveredPixels := by
  intro x y n s hr
  have ht := (execDrwVxVyN_eq_next (x := x) (y := y)).mpr ⟨hr, rfl⟩
  refine ⟨_, ht, fun row col hc => ?_, fun row col hc => ?_, fun hlit => ?_, fun hlit => ?_, rfl,
    exec_onlyChanges (i := .drwVxVyN x y n) ht⟩
  · simp only [State.advance_fb, State.setReg_fb, State.setDisplay_fb, drawn_eq_drawCells]
    exact pixel_drawCells_of_mem _ _ (pairwise_cellsOf x y n s) (spriteCovers_iff.mp hc)
  · simp only [State.advance_fb, State.setReg_fb, State.setDisplay_fb, drawn_eq_drawCells]
    exact pixel_drawCells_of_not _ _ (mt spriteCovers_iff.mpr hc)
  · rw [State.reg_advance, State.reg_setReg_same, drawn_flag.mpr hlit, flagByte_true]
  · rw [State.reg_advance, State.reg_setReg_same, Bool.eq_false_iff.mpr (mt drawn_flag.mp hlit), flagByte_false]

/-- Settles O47, by the two ways Dxyn ends; with no row it draws no cell. -/
theorem drawFaultsOnlyPastTheEnd : Obligations.DrawFaultsOnlyPastTheEnd := by
  intro x y n s
  refine ⟨execDrwVxVyN_eq_fault.trans (and_iff_left rfl), fun hn => ?_⟩
  subst n
  have ht := (execDrwVxVyN_eq_next (x := x) (y := y) (n := 0#4) (s := s)).mpr ⟨.inl rfl, rfl⟩
  exact ⟨_, ht, rfl, by rw [State.reg_advance, State.reg_setReg_same]; rfl, rfl⟩

/-- Settles O48: the first draw keeps the coordinates, I and memory, so the second covers the same pixels and flips each
back; it finds lit the ones that were unlit before. -/
theorem drawingTwiceRestoresTheDisplay : Obligations.DrawingTwiceRestoresTheDisplay := by
  intro x y n s hx hy hr
  obtain ⟨t, ht, hflip, hkeep, -, -, -, hframe⟩ := drawFlipsExactlyTheCoveredPixels x y n s hr
  have hi : t.i = s.i := hframe .index (by simp)
  have hcovers := spriteCovers_congr (n := n) (hframe (.reg x) (by simpa using hx)) (hframe (.reg y) (by simpa using hy)) hi
    fun a => hframe (.byte a) (by simp)
  have hbase : t.base = s.base := congrArg BitVec.toNat hi
  obtain ⟨u, hu, hflip', hkeep', hlit, hunlit, -, -⟩ := drawFlipsExactlyTheCoveredPixels x y n t (hbase ▸ hr)
  have hcollision : (∃ row col, SpriteCovers x y n t row col ∧ t.fb.pixel row.val col.val = true) ↔
      ∃ row col, SpriteCovers x y n s row col ∧ s.fb.pixel row.val col.val = false := by
    refine exists_congr fun row => exists_congr fun col => ?_
    rw [hcovers]
    exact and_congr_right fun hc => by rw [hflip row col hc, Bool.not_eq_true']
  refine ⟨t, u, ht, hu, Display.pixel_eq_of_fin fun row col => ?_, fun h => hlit (hcollision.mpr h),
    fun h => hunlit (mt hcollision.mp h)⟩
  by_cases hc : SpriteCovers x y n s row col
  · rw [hflip' row col ((hcovers row col).mpr hc), hflip row col hc, Bool.not_not]
  · rw [hkeep' row col (mt (hcovers row col).mp hc), hkeep row col hc]
end

section
/-! PROOFS. The keypad and the timers (spec/44_keypad_timers.md). -/

namespace Sys2Proof.Machine

/-- The skip on a key's level, either level wanted (R160, R161). -/
theorem skipOnKey_pc (keys : BitVec 16) (want : Bool) (x : RegIdx) (s : State) :
    (s.noteKeySample.skipIf (keys.getLsbD (lowNibble (s.reg x)).val == want)).pc =
      if keys.getLsbD ((s.reg x).toNat % 16) = want then s.pc + 4 else s.pc + 2 := by
  simp

/-- KEY_DELIVER to a waiting register changes that register, PC and AWAIT (R163). -/
theorem keyDeliver_onlyChanges {k : Nibble} {s : State} {r : RegIdx} (h : s.await = some r) :
    OnlyChanges (fun p => p = .reg r ∨ p = .pc ∨ p = .await) s (keyDeliver k s) := by
  rw [keyDeliver_waiting h]
  refine ((setReg_onlyChanges s r _).advance.mono ?_).trans ((setAwait_onlyChanges _ none).mono fun _ hp => .inr (.inr hp))
  exact fun _ hp => hp.elim (fun hpc => .inr (.inl hpc)) .inl

end Sys2Proof.Machine

open Sys2Proof Sys2Proof.Machine

/-! ## The obligations -/

/-- Settles O49: both instructions test one level, for opposite values. -/
theorem keySkipsTestTheSampledLevel : Obligations.KeySkipsTestTheSampledLevel := by
  intro x s
  refine ⟨_, _, rfl, rfl, skipOnKey_pc _ true x s, ?_, rfl, rfl, exec_onlyChanges (i := .skpVx x) rfl,
    exec_onlyChanges (i := .sknpVx x) rfl⟩
  rw [skipOnKey_pc]
  cases (Config.keyLevels s.keySamples).getLsbD ((s.reg x).toNat % 16) <;> rfl

/-- Settles O50: AWAIT is set, and with it the next step is Held. -/
theorem keyWaitIsEntered : Obligations.KeyWaitIsEntered := fun x _ =>
  ⟨_, rfl, rfl, exec_onlyChanges (i := .ldVxK x) rfl, perform_step_held rfl⟩

/-- Settles O51: Fx07 is the shape that writes one register; Fx15 and Fx18 write none. -/
theorem timerTransfersCopyAByte : Obligations.TimerTransfersCopyAByte := by
  intro x s
  obtain ⟨t, ht, hx, hpc, hvf⟩ := writeAndAdvance_spec s x s.dt
  have hdt : t.dt = s.dt := exec_onlyChanges (i := .ldVxDt x) ht .delay (by simp [MayChange])
  exact ⟨⟨t, ht, hx, hdt, hpc, hvf⟩, ⟨_, rfl, rfl, rfl, rfl⟩, ⟨_, rfl, rfl, rfl, rfl⟩⟩

/-- Settles O52, by the two cases of AWAIT. -/
theorem keyDeliveryEndsTheWait : Obligations.KeyDeliveryEndsTheWait := by
  intro k s
  refine ⟨fun ha => congrArg (Reply.ok, ·) (keyDeliver_idle ha), fun r ha => ?_⟩
  refine ⟨keyDeliver k s, rfl, ?_, ?_, ?_, keyDeliver_onlyChanges ha⟩ <;> rw [keyDeliver_waiting ha]
  · rw [State.reg_setAwait, State.reg_advance, State.reg_setReg_same]
    exact BitVec.toNat_setWidth_of_le (by decide)
  · rfl
  · rfl
end
